-- ==== Sys2Proof/Word.lean ====
section
/-! DEFINITION. The widths of the machine's values: 64-bit values, 136-bit memory words, bytes of a stored image. -/

namespace Sys2Proof

/-- A general register, an operand value, a stack datum, ip or sp: 64 bits (R6: `XLEN`, `ALEN`). Signed readings
are `BitVec.toInt` (R7, `signed`), unsigned readings `BitVec.toNat`. -/
abbrev Word := BitVec 64

/-- One memory word, 136 bits (R6: `WLEN`): an encoded instruction, or a stack cell (R51). -/
abbrev MemWord := BitVec 136

/-- One byte of a memory image stored outside the machine (R61). -/
abbrev Byte := BitVec 8

/-- An image file's word is 17 bytes (R61). -/
abbrev wordBytes : Nat := 17

end Sys2Proof
end

