-- ==== Sys2Proof/Syntax.lean ====
section
/-! DEFINITION. The decoded instruction: operands (R84) and the fifteen instructions (R83), one constructor per row
of `spec/opcode_table.json`. -/

namespace Sys2Proof

/-- An operand slot of a decoded instruction (R84). The names are the spec's: `None`, `Immediate(v)`, `Register(r)`,
`Address(a)`. A Register operand holds its whole 64-bit index field, checked against 16 only on use (R88). -/
inductive Operand where
  /-- An unused slot (R86). -/
  | none
  /-- A 64-bit constant (R85). -/
  | imm (v : Word)
  /-- A register index, not yet checked (R88). -/
  | reg (r : Word)
  /-- A memory index, never dereferenced (R87, R60). -/
  | addr (a : Word)
deriving DecidableEq, Repr

/-- A decoded instruction (R82, R83). Every constructor carries both operand slots, as the spec's structured value does;
a slot an opcode does not use is named `b` or `a` and is ignored when the instruction runs (R89, R90). -/
inductive Instr where
  /-- R150. -/
  | noop (a b : Operand)
  /-- R151. -/
  | halt (a b : Operand)
  /-- R155. -/
  | mov (dst src : Operand)
  /-- R158. -/
  | add (dst src : Operand)
  /-- R165. -/
  | push (src b : Operand)
  /-- R166. -/
  | pop (dst b : Operand)
  /-- R175. -/
  | int (n b : Operand)
  /-- R185. -/
  | cmp (a b : Operand)
  /-- R190. -/
  | jmp (target b : Operand)
  /-- R193. -/
  | je (target b : Operand)
  /-- R194. -/
  | jne (target b : Operand)
  /-- R195. -/
  | jl (target b : Operand)
  /-- R196. -/
  | jle (target b : Operand)
  /-- R197. -/
  | jg (target b : Operand)
  /-- R198. -/
  | jge (target b : Operand)
deriving DecidableEq, Repr

end Sys2Proof
end

