-- ==== Sys2Proof/WellFormed.lean ====
section
/-! DEFINITION. When an instruction can execute whatever the machine's state is: its operands have the kinds its opcode
needs (R89, R92, R135), and every register it uses exists (R88, R93). -/

namespace Sys2Proof

/-- The operand is a Register, the kind a destination must have (R89). -/
def Operand.isRegister : Operand → Bool
  | .reg _ => true
  | .none | .imm _ | .addr _ => false

/-- The operand has a value kind: Immediate, Register or Address (R89). -/
def Operand.hasValue : Operand → Bool
  | .none => false
  | .imm _ | .reg _ | .addr _ => true

/-- If the operand is a Register, its index is below 16 (R88). -/
def Operand.indexInRange : Operand → Bool
  | .reg r => r.toNat < 16
  | .none | .imm _ | .addr _ => true

/-- The operand forms are legal: not one of the forms R92 lists, the ones R135 makes `IllegalInstruction`. -/
def Instr.legal : Instr → Bool
  | .noop _ _ | .halt _ _ => true
  | .mov dst src | .add dst src => dst.isRegister && src.hasValue
  | .pop dst _ => dst.isRegister
  | .cmp a b => a.hasValue && b.hasValue
  | .push x _ | .int x _ | .jmp x _ | .je x _ | .jne x _ | .jl x _ | .jle x _ | .jg x _ | .jge x _ => x.hasValue

/-- Every Register operand in a slot the opcode uses has an index below 16 (R88, R93; ignored slots do not count, R90). -/
def Instr.registersExist : Instr → Bool
  | .noop _ _ | .halt _ _ => true
  | .mov a b | .add a b | .cmp a b => a.indexInRange && b.indexInRange
  | .push x _ | .pop x _ | .int x _ | .jmp x _ | .je x _ | .jne x _ | .jl x _ | .jle x _ | .jg x _ | .jge x _ =>
    x.indexInRange

/-- A well-formed instruction: legal operand forms, and registers that exist. One that is not well formed still has a
meaning: it takes `IllegalInstruction` or `RegisterOutOfRange` when it runs (R92, R93). -/
def Instr.wellFormed (i : Instr) : Bool :=
  i.legal && i.registersExist

end Sys2Proof
end

