-- ==== Sys2Proof/Decode.lean ====
section
/-! DEFINITION. The instruction word taken apart (R81 to R91) and put together (R94), and the byte order of a stored
image (R61). Decoding is total: it rejects by name. -/

namespace Sys2Proof

/-! ## Bytes of a word -/

/-- Byte `j` of a word, counted from the most significant, `j` from 0 to 16 (R61: most significant byte first). -/
def byteOfWord (w : MemWord) (j : Nat) : Byte :=
  w.extractLsb' (8 * (16 - j)) 8

/-- The number whose first `k` bytes, most significant first, are `f 0` to `f (k - 1)` (R61). -/
def bytesValue (f : Nat → Byte) : Nat → Nat
  | 0 => 0
  | k + 1 => bytesValue f k * 2 ^ 8 + (f k).toNat

/-- The word whose byte `j` from the most significant is `f j` (R61). -/
def wordOfBytes (f : Nat → Byte) : MemWord :=
  BitVec.ofNat 136 (bytesValue f wordBytes)

/-- The 17 bytes of a word in a stored image (R61). -/
def bytesOfWord (w : MemWord) : List Byte :=
  (List.range wordBytes).map (byteOfWord w)

/-! ## Fields (R81) -/

/-- `OPC`, bits 135 to 132. -/
def opcField (w : MemWord) : BitVec 4 := w.extractLsb' 132 4

/-- `TA`, bits 131 and 130. -/
def taField (w : MemWord) : BitVec 2 := w.extractLsb' 130 2

/-- `TB`, bits 129 and 128. -/
def tbField (w : MemWord) : BitVec 2 := w.extractLsb' 128 2

/-- `VA`, bits 127 to 64. -/
def vaField (w : MemWord) : Word := w.extractLsb' 64 64

/-- `VB`, bits 63 to 0. -/
def vbField (w : MemWord) : Word := w.extractLsb' 0 64

/-- The operand of a kind tag and a value field (R84 to R88). A `None` operand's value field is ignored (R86). -/
def operandOf (tag : BitVec 2) (f : Word) : Operand :=
  if tag = 0 then .none
  else if tag = 1 then .imm f
  else if tag = 2 then .reg f
  else .addr f

/-! ## Decoding -/

/-- Why the decoder gives no instruction. -/
inductive Reject where
  /-- `OPC = 15` selects no instruction (R91). Executing the word takes `IllegalInstruction` (R135). -/
  | reservedOpcode
  /-- A byte string shorter than one word of a stored image (R61). A fetch never meets it: it reads whole words (R132). -/
  | shortWord
deriving DecidableEq, Repr

/-- R82, R83: the instruction a word stands for, on every word. -/
def decode (w : MemWord) : Except Reject Instr :=
  let a := operandOf (taField w) (vaField w)
  let b := operandOf (tbField w) (vbField w)
  match (opcField w).toNat with
  | 0 => .ok (.noop a b)
  | 1 => .ok (.halt a b)
  | 2 => .ok (.mov a b)
  | 3 => .ok (.add a b)
  | 4 => .ok (.push a b)
  | 5 => .ok (.pop a b)
  | 6 => .ok (.int a b)
  | 7 => .ok (.cmp a b)
  | 8 => .ok (.jmp a b)
  | 9 => .ok (.je a b)
  | 10 => .ok (.jne a b)
  | 11 => .ok (.jl a b)
  | 12 => .ok (.jle a b)
  | 13 => .ok (.jg a b)
  | 14 => .ok (.jge a b)
  | _ => .error .reservedOpcode

/-- The instruction at the front of a stored image, and the bytes after it (R61, R82). -/
def decodeBytes (bs : List Byte) : Except Reject (Instr × List Byte) :=
  if bs.length < wordBytes then .error .shortWord
  else
    match decode (wordOfBytes fun j => bs.getD j 0) with
    | .ok i => .ok (i, bs.drop wordBytes)
    | .error r => .error r

/-! ## Encoding (R94) -/

/-- The opcode number (R83). -/
def Instr.opcode : Instr → BitVec 4
  | .noop _ _ => 0
  | .halt _ _ => 1
  | .mov _ _ => 2
  | .add _ _ => 3
  | .push _ _ => 4
  | .pop _ _ => 5
  | .int _ _ => 6
  | .cmp _ _ => 7
  | .jmp _ _ => 8
  | .je _ _ => 9
  | .jne _ _ => 10
  | .jl _ _ => 11
  | .jle _ _ => 12
  | .jg _ _ => 13
  | .jge _ _ => 14

/-- Operand slot a (R82: `I.a`). -/
def Instr.slotA : Instr → Operand
  | .noop a _ | .halt a _ | .mov a _ | .add a _ | .push a _ | .pop a _ | .int a _ | .cmp a _ | .jmp a _ | .je a _
  | .jne a _ | .jl a _ | .jle a _ | .jg a _ | .jge a _ => a

/-- Operand slot b (R82: `I.b`). -/
def Instr.slotB : Instr → Operand
  | .noop _ b | .halt _ b | .mov _ b | .add _ b | .push _ b | .pop _ b | .int _ b | .cmp _ b | .jmp _ b | .je _ b
  | .jne _ b | .jl _ b | .jle _ b | .jg _ b | .jge _ b => b

/-- The kind tag of an operand (R84). -/
def Operand.tag : Operand → BitVec 2
  | .none => 0
  | .imm _ => 1
  | .reg _ => 2
  | .addr _ => 3

/-- The value field of an operand: zero for `None` (R86, R112). -/
def Operand.field : Operand → Word
  | .none => 0
  | .imm v => v
  | .reg r => r
  | .addr a => a

/-- R94: the word of an instruction, `o * 2^132 + ta * 2^130 + tb * 2^128 + va * 2^64 + vb`. -/
def encode (i : Instr) : MemWord :=
  BitVec.ofNat 136
    (i.opcode.toNat * 2 ^ 132 + i.slotA.tag.toNat * 2 ^ 130 + i.slotB.tag.toNat * 2 ^ 128 +
      i.slotA.field.toNat * 2 ^ 64 + i.slotB.field.toNat)

/-! ## The words of `spec/opcode_table.json` -/

/-- The memory word made of the low `nbits` bits of `w`, every bit above them 0. The table numbers a row's bits as one
136-bit number, and one word is the whole instruction (R80), so no byte order enters. -/
def tableWord (nbits w : Nat) : MemWord :=
  BitVec.ofNat 136 (w % 2 ^ nbits)

/-- The instruction the decoder reads from a word of the opcode table; none where it rejects the word. -/
def decodeTableWord (nbits w : Nat) : Option Instr :=
  match decode (tableWord nbits w) with
  | .ok i => some i
  | .error _ => none

end Sys2Proof
end

