-- ==== Sys2Proof/Config.lean ====
section
/-! DEFINITION. What the spec leaves to the implementation or to the host: the value `CAPACITY` has in the model's one
`State.reset`, and the assembler's line numbering. -/

namespace Sys2Proof

/-- `CAPACITY` of `State.reset`. DESIGN CHOICE, unsafe (log 3): the spec leaves `CAPACITY` open (R6, D7). The value is
`LOW_SP + 4` with the `LOW_SP = 0` of a machine that holds no program, after the convention that
`95_test_vectors.md` starts its runs with. `State.construct` takes any other capacity. -/
def Config.resetCapacity : Word := 4

/-- `LINE_BASE` of R111: whether the first line of a program text is line 1 (else line 0). OPEN in the spec (D30), so
opaque here; nothing in the hardware depends on it (log 10). -/
opaque Config.lineBaseIsOne : Bool

/-- Whether skipped lines count in a `DecodeError`'s line number. OPEN in the spec (R111, D30), so opaque (log 10). -/
opaque Config.skippedLinesCount : Bool

end Sys2Proof
end

