-- ==== Sys2Proof/Machine/State.lean ====
section
/-! DEFINITION. The machine's state (10_state.md), the reasons a step stops, and the state after reset. -/

namespace Sys2Proof.Machine

/-- The six runtime fault causes (R210). Taking one is a NEXT state whose status is `faulted` (R216). -/
inductive Cause where
  /-- A step begins with `ip > LOW_SP` (R211). -/
  | invalidFetch
  /-- A used Register operand has index 16 or more (R212). -/
  | registerOutOfRange
  /-- PUSH with `sp = CAPACITY` (R213). -/
  | stackOverflow
  /-- POP with `sp = LOW_SP` (R214). -/
  | stackUnderflow
  /-- The word itself cannot be executed (R215, R135). -/
  | illegalInstruction
  /-- INT 4 with a cell outside the stack region (R215, R176). -/
  | memoryOutOfRange
deriving DecidableEq, Repr

/-- The run state (R36): the kind, and the reason when faulted. Its 5-bit encoding (R37) is `Status.word`. -/
inductive Status where
  | running
  | halted
  | faulted (reason : Cause)
deriving DecidableEq, Repr

/-- Why the model answers no next state although the spec's step is total. -/
inductive Fault where
  /-- Raised by the two memory primitives, `State.withRead` and `State.withWrite`, on a word index that is not below
  `CAPACITY`: the word does not exist. R52 says the primitives are never called so, and from a state that meets
  `State.Inv` they are not. Safe: a model that stops proves nothing false (log 5). -/
  | noSuchWord (index : Nat)
deriving DecidableEq, Repr

/-- Why the model gives an instruction no meaning. -/
inductive Refusal where
  /-- An arm of `exec` without a meaning. No arm of this model is one. Safe: the model says nothing of the instruction. -/
  | notModelled (mnemonic : String)
deriving DecidableEq, Repr

/-- The memory's bytes, in the form R61 gives a stored image: byte `j` of word `a`, most significant first, has the
number `17 * a + j`. The machine itself reaches memory only by whole words (R52, R61); the cells are listed with
rising numbers, and a cell is listed only if its byte is not 0 (log 1, log 2). -/
abbrev Memory := List Host.Cell

/-- The whole state of the machine (10_state.md): `( x[0..15], ZF, CF, ip, sp, status, mem, out )` and the two control
registers `LOW_SP` and `CAPACITY`. -/
structure State where
  /-- `x[0]` to `x[15]` (R20). -/
  regs : Vector Word 16
  /-- `ZF`, that is `FLAGS[0]` (R26, R27). -/
  zf : Bool
  /-- `CF`, that is `FLAGS[1]` (R26, R27). -/
  cf : Bool
  /-- The instruction pointer, a word index (R30). -/
  ip : Word
  /-- The stack pointer, the index of the next free slot (R33). -/
  sp : Word
  /-- The run state (R36), the control register `STATUS` (R37). -/
  status : Status
  /-- `LOW_SP`: the number of instruction words loaded and the stack floor (R37). -/
  lowSp : Word
  /-- `CAPACITY`: the number of words of the memory (R37, R39). -/
  capacity : Word
  /-- `mem[0 .. CAPACITY-1]` (R39). -/
  mem : Memory
  /-- The output sequence, oldest first (R40): the signed values INT 4 delivered. -/
  out : List Int
deriving DecidableEq, Repr

/-- What a step, an instruction or a shared operation answers. -/
abbrev Result := Host.Outcome State Fault Refusal

/-- The machine right after reset (R42, R250) with no program loaded: registers and flags 0, `ip = 0`,
`sp = LOW_SP`, running, every word of the memory 0, no output. The load sets `LOW_SP` and construction sets
`CAPACITY` (R37); here they are 0, the empty program, and `Config.resetCapacity` (DESIGN CHOICE, unsafe, log 3). -/
def State.reset : State where
  regs := Vector.replicate 16 0
  zf := false
  cf := false
  ip := 0
  sp := 0
  status := .running
  lowSp := 0
  capacity := Config.resetCapacity
  mem := []
  out := []

end Sys2Proof.Machine
end

