-- ==== Sys2Proof/Machine/Ops.lean ====
section
/-! DEFINITION. The named operations over memory, registers, ip and the output, and taking a fault. -/

namespace Sys2Proof.Machine

/-! ## Memory as cells -/

/-- What a cell that is not listed reads as: the words of the stack region are 0 after reset (R42; log 2). -/
def Memory.unlisted : Byte := 0

/-- The byte with number `n`. -/
def Memory.readByte : Memory → Nat → Byte
  | [], _ => Memory.unlisted
  | (k, b) :: rest, n => if n = k then b else Memory.readByte rest n

/-- Give the byte with number `n` the value `b`, keeping the canonical form. -/
def Memory.writeByte : Memory → Nat → Byte → Memory
  | [], n, b => if b = Memory.unlisted then [] else [(n, b)]
  | (k, c) :: rest, n, b =>
    if n < k then
      if b = Memory.unlisted then (k, c) :: rest else (n, b) :: (k, c) :: rest
    else if n = k then
      if b = Memory.unlisted then rest else (n, b) :: rest
    else
      (k, c) :: Memory.writeByte rest n b

/-- The canonical form: numbers strictly rising, no cell that reads as an unlisted one does. -/
def Memory.wf : Memory → Bool
  | [] => true
  | [(_, b)] => b ≠ Memory.unlisted
  | (k, b) :: (l, c) :: rest => b ≠ Memory.unlisted && k < l && Memory.wf ((l, c) :: rest)

/-- `mem[a]`, all 136 bits (R52). -/
def Memory.readWord (m : Memory) (a : Nat) : MemWord :=
  wordOfBytes fun j => m.readByte (wordBytes * a + j)

/-- Write the last `k` bytes of the 17 of word `w` at index `a`, from the one with the lowest number on. -/
def Memory.writeTail (m : Memory) (a : Nat) (w : MemWord) : Nat → Memory
  | 0 => m
  | k + 1 => Memory.writeTail (m.writeByte (wordBytes * a + (16 - k)) (byteOfWord w (16 - k))) a w k

/-- `mem[a] <- w` (R52). -/
def Memory.writeWord (m : Memory) (a : Nat) (w : MemWord) : Memory :=
  m.writeTail a w wordBytes

/-- The datum of a stack cell: bits 63 to 0; bits 135 to 64 are ignored (R51). -/
def datumOf (w : MemWord) : Word :=
  w.setWidth 64

/-- The word a datum is stored as, `zext_136` (R51). -/
def cellOf (v : Word) : MemWord :=
  v.setWidth 136

/-! ## Taking a fault -/

/-- Taking a fault (R216, R217): the status becomes `Faulted(reason)` and nothing else changes, so ip still holds the
index of the faulting instruction (or, for `InvalidFetch`, the index out of range). There is no handler and no saved
state (R218), and no return from a fault: only a reset leaves `Faulted` (R219, R36), see `State.resetTransaction`. -/
def State.raise (s : State) (c : Cause) : State :=
  { s with status := .faulted c }

/-- A fault as the outcome of a step: a next state, in which the machine has stopped. -/
def State.trap (s : State) (c : Cause) : Result :=
  .next (s.raise c)

/-! ## Memory accesses -/

/-- `MemRead(a, 1)` (R52) and what to do with the word. An index that is not below `CAPACITY` names no word (log 5). -/
def State.withRead (s : State) (a : Nat) (k : MemWord → Result) : Result :=
  if a < s.capacity.toNat then k (s.mem.readWord a) else .fault (.noSuchWord a)

/-- `MemWrite(a, 1, w)` (R52) and what to do with the state it leaves. -/
def State.withWrite (s : State) (a : Nat) (w : MemWord) (k : State → Result) : Result :=
  if a < s.capacity.toNat then k { s with mem := s.mem.writeWord a w } else .fault (.noSuchWord a)

/-! ## Registers, ip, sp, output -/

/-- `x[r]` (R23). -/
def State.reg (s : State) (r : Fin 16) : Word :=
  s.regs[r]

/-- `x[r] <- v`; no other register changes (R23). No register is hardwired (R22). -/
def State.writeReg (s : State) (r : Fin 16) (v : Word) : State :=
  { s with regs := s.regs.set r v }

/-- ECX, the register INT 4 reads as its cell number (R21, R176). -/
def ecx : Fin 16 := 2

/-- `ip <- ip + 1`, the trailing increment of every step that is not a taken jump (R140). -/
def State.advance (s : State) : State :=
  { s with ip := s.ip + 1 }

/-- `ip <- t`, the full 64-bit value, unchecked (R140, R191). -/
def State.jumpTo (s : State) (t : Word) : State :=
  { s with ip := t }

/-- A jump's end (R140): the target when it is taken, else the trailing increment. -/
def State.branch (s : State) (taken : Bool) (t : Word) : State :=
  if taken then s.jumpTo t else s.advance

/-- `sp <- p` (R34). -/
def State.setSp (s : State) (p : Word) : State :=
  { s with sp := p }

/-- `status <- Halted` (R151, R131). -/
def State.halt (s : State) : State :=
  { s with status := .halted }

/-- `out <- out ++ [v]` (R40, R177). -/
def State.emit (s : State) (v : Int) : State :=
  { s with out := s.out ++ [v] }

end Sys2Proof.Machine
end

