-- ==== Sys2Proof/Machine/Flags.lean ====
section
/-! DEFINITION. The flags: how CMP sets them (R185), what each conditional jump reads (R192), and the bit encodings of
the registers `FLAGS` (R27) and `STATUS` (R37). -/

namespace Sys2Proof.Machine

/-- The two flags (R26). -/
inductive Flag where
  | ZF
  | CF
deriving DecidableEq, Repr

/-- `get_flag` (R28). -/
def State.getFlag (s : State) : Flag → Bool
  | .ZF => s.zf
  | .CF => s.cf

/-- `set_flag`: sets or clears one flag, whatever it held (R28). -/
def State.setFlag (s : State) (f : Flag) (v : Bool) : State :=
  match f with
  | .ZF => { s with zf := v }
  | .CF => { s with cf := v }

/-- The exact difference of the two signed values, never wrapped (R185). -/
def difference (va vb : Word) : Int :=
  va.toInt - vb.toInt

/-- CMP's flags (R185, R186): both assigned, from this comparison alone. -/
def State.compare (s : State) (va vb : Word) : State :=
  (s.setFlag .ZF (difference va vb = 0)).setFlag .CF (difference va vb < 0)

/-! ## The conditional branch controller (R192, the source's formulas) -/

/-- JE: `ZF`. -/
def State.condE (s : State) : Bool := s.getFlag .ZF

/-- JNE: `!ZF`. -/
def State.condNE (s : State) : Bool := !s.getFlag .ZF

/-- JL: `!ZF && CF`. -/
def State.condL (s : State) : Bool := !s.getFlag .ZF && s.getFlag .CF

/-- JLE: `ZF || (!ZF && CF)`. -/
def State.condLE (s : State) : Bool := s.getFlag .ZF || (!s.getFlag .ZF && s.getFlag .CF)

/-- JG: `!ZF && !CF`. -/
def State.condG (s : State) : Bool := !s.getFlag .ZF && !s.getFlag .CF

/-- JGE: `ZF || (!ZF && !CF)`. -/
def State.condGE (s : State) : Bool := s.getFlag .ZF || (!s.getFlag .ZF && !s.getFlag .CF)

/-! ## Register encodings, seen by the host only -/

/-- The register `FLAGS`: bit 0 is ZF, bit 1 is CF (R27). -/
def State.flagsWord (s : State) : BitVec 2 :=
  BitVec.ofBool s.cf ++ BitVec.ofBool s.zf

/-- The cause code (R210). -/
def Cause.code : Cause → BitVec 3
  | .invalidFetch => 1
  | .registerOutOfRange => 2
  | .stackOverflow => 3
  | .stackUnderflow => 4
  | .illegalInstruction => 5
  | .memoryOutOfRange => 6

/-- `STATUS.STATE` (R37). -/
def Status.stateField : Status → BitVec 2
  | .running => 0
  | .halted => 1
  | .faulted _ => 2

/-- `STATUS.CAUSE`: 0 unless faulted (R37). -/
def Status.causeField : Status → BitVec 3
  | .running | .halted => 0
  | .faulted c => c.code

/-- The register `STATUS`: `STATUS[1:0] = STATE`, `STATUS[4:2] = CAUSE` (R37). -/
def Status.word (t : Status) : BitVec 5 :=
  t.causeField ++ t.stateField

end Sys2Proof.Machine
end

