-- ==== Sys2Proof/Machine/Operands.lean ====
section
/-! DEFINITION. Operand resolution (R137, R138) and the legality checks on operand forms (R135). The checks are written
in the form `s.withX op k`: do the check, take the fault it names, else go on with `k`. -/

namespace Sys2Proof.Machine

/-- `value(op)` (R137). -/
def State.value (s : State) : Operand → Except Cause Word
  | .imm v => .ok v
  | .reg r => if h : r.toNat < 16 then .ok (s.reg ⟨r.toNat, h⟩) else .error .registerOutOfRange
  | .addr a => .ok a
  | .none => .error .illegalInstruction

/-- `dstreg(op)` (R138). -/
def dstreg : Operand → Except Cause (Fin 16)
  | .reg r => if h : r.toNat < 16 then .ok ⟨r.toNat, h⟩ else .error .registerOutOfRange
  | .none | .imm _ | .addr _ => .error .illegalInstruction

/-- Resolve a value operand, or take the fault that `value` raises (R137). -/
def State.withValue (s : State) (op : Operand) (k : Word → Result) : Result :=
  match s.value op with
  | .ok v => k v
  | .error c => s.trap c

/-- Resolve a destination operand, or take the fault that `dstreg` raises (R138). -/
def State.withDst (s : State) (op : Operand) (k : Fin 16 → Result) : Result :=
  match dstreg op with
  | .ok d => k d
  | .error c => s.trap c

/-- The legality check of a slot that needs a value: None is `IllegalInstruction` (R135). -/
def State.needValue (s : State) (op : Operand) (k : Result) : Result :=
  match op with
  | .none => s.trap .illegalInstruction
  | .imm _ | .reg _ | .addr _ => k

/-- The legality check of a destination slot: anything but a Register is `IllegalInstruction` (R135). -/
def State.needRegister (s : State) (op : Operand) (k : Result) : Result :=
  match op with
  | .reg _ => k
  | .none | .imm _ | .addr _ => s.trap .illegalInstruction

end Sys2Proof.Machine
end

