-- ==== Sys2Proof/Machine/Cmp.lean ====
section
/-! DEFINITION. CMP (45_cmp.md). -/

namespace Sys2Proof.Machine

/-- R185, R186: a is resolved before b; both flags are assigned. -/
def execCmp (a b : Operand) (s : State) : Result :=
  s.needValue a <| s.needValue b <|
  s.withValue a fun va => s.withValue b fun vb =>
    .next (s.compare va vb).advance

end Sys2Proof.Machine
end

