-- ==== Sys2Proof/Machine/Interrupt.lean ====
section
/-! DEFINITION. INT and the Interrupt Handler (44_int.md). -/

namespace Sys2Proof.Machine

/-- The word index of INT 4's cell, as an unbounded integer: `LOW_SP + signed(x[2])` (R59, R176). -/
def State.printIndex (s : State) : Int :=
  s.lowSp.toNat + (s.reg ecx).toInt

/-- Code 4 (R175, R176): the cell is one of the stack region, at or above sp too; its datum, read as signed, goes to
the output port, which never stalls (R177). Outside the region: `MemoryOutOfRange`, and no output. -/
def State.printCell (s : State) : Result :=
  if (s.reg ecx).toInt < 0 ∨ s.capacity.toNat ≤ s.printIndex then s.trap .memoryOutOfRange
  else s.withRead s.printIndex.toNat fun w => .next (s.emit (datumOf w).toInt).advance

/-- R175: code 4 prints; every other code does nothing (R178). The code is compared on all 64 bits. -/
def execInt (n : Operand) (s : State) : Result :=
  s.needValue n <| s.withValue n fun code =>
  if code = 4 then s.printCell else .next s.advance

end Sys2Proof.Machine
end

