-- ==== Sys2Proof/Machine/Jumps.lean ====
section
/-! DEFINITION. JMP and the conditional jumps, the conditional branch controller (46_jumps.md). -/

namespace Sys2Proof.Machine

/-- What the seven jumps share (R191, R199): the target is checked and resolved whether or not the jump is taken. -/
def State.jumpIf (s : State) (taken : Bool) (target : Operand) : Result :=
  s.needValue target <| s.withValue target fun t => .next (s.branch taken t)

/-- R190. -/
def execJmp (target : Operand) (s : State) : Result :=
  s.jumpIf true target

/-- R193. -/
def execJe (target : Operand) (s : State) : Result :=
  s.jumpIf s.condE target

/-- R194. -/
def execJne (target : Operand) (s : State) : Result :=
  s.jumpIf s.condNE target

/-- R195. -/
def execJl (target : Operand) (s : State) : Result :=
  s.jumpIf s.condL target

/-- R196. -/
def execJle (target : Operand) (s : State) : Result :=
  s.jumpIf s.condLE target

/-- R197. -/
def execJg (target : Operand) (s : State) : Result :=
  s.jumpIf s.condG target

/-- R198. -/
def execJge (target : Operand) (s : State) : Result :=
  s.jumpIf s.condGE target

end Sys2Proof.Machine
end

