-- ==== Sys2Proof/Machine/MovAdd.lean ====
section
/-! DEFINITION. MOV and ADD (42_mov_add.md). -/

namespace Sys2Proof.Machine

/-- R155. The order of the two register checks cannot be observed (R156). -/
def execMov (dst src : Operand) (s : State) : Result :=
  s.needRegister dst <| s.needValue src <|
  s.withDst dst fun d => s.withValue src fun v =>
    .next (s.writeReg d v).advance

/-- R158, R159: the sum wraps modulo 2^64 and no flag changes. Both operands are read before the write. -/
def execAdd (dst src : Operand) (s : State) : Result :=
  s.needRegister dst <| s.needValue src <|
  s.withDst dst fun d => s.withValue src fun v =>
    .next (s.writeReg d (s.reg d + v)).advance

end Sys2Proof.Machine
end

