-- ==== Sys2Proof/Machine/NoopHalt.lean ====
section
/-! DEFINITION. NOOP and HALT (41_noop_halt.md). -/

namespace Sys2Proof.Machine

/-- R150: only ip changes. Both slots are ignored, so nothing is checked (R90). -/
def execNoop (s : State) : Result :=
  .next s.advance

/-- R151, R152: the status becomes `Halted` and ip still advances. -/
def execHalt (s : State) : Result :=
  .next s.halt.advance

end Sys2Proof.Machine
end

