-- ==== Sys2Proof/Machine/PushPop.lean ====
section
/-! DEFINITION. PUSH and POP, the stack pointer controller (43_push_pop.md). -/

namespace Sys2Proof.Machine

/-- R165: the cell at sp is written, then sp is incremented. -/
def execPush (src : Operand) (s : State) : Result :=
  s.needValue src <|
  if s.sp = s.capacity then s.trap .stackOverflow
  else
    s.withValue src fun v =>
    s.withWrite s.sp.toNat (cellOf v) fun t => .next (t.setSp (s.sp + 1)).advance

/-- R166: sp is decremented, then the cell at the new sp is read. -/
def execPop (dst : Operand) (s : State) : Result :=
  s.needRegister dst <|
  if s.sp = s.lowSp then s.trap .stackUnderflow
  else
    s.withDst dst fun d =>
    s.withRead (s.sp - 1).toNat fun w => .next ((s.setSp (s.sp - 1)).writeReg d (datumOf w)).advance

end Sys2Proof.Machine
end

