-- ==== Sys2Proof/Machine/Dispatch.lean ====
section
/-! DEFINITION. Dispatch by opcode (R136): one arm per instruction. A slot that an opcode ignores (R89) is not passed on. -/

namespace Sys2Proof.Machine

def exec (i : Instr) (s : State) : Host.Outcome State Fault Refusal :=
  match i with
  | .noop _ _ => Sys2Proof.Machine.execNoop s
  | .halt _ _ => Sys2Proof.Machine.execHalt s
  | .mov dst src => Sys2Proof.Machine.execMov dst src s
  | .add dst src => Sys2Proof.Machine.execAdd dst src s
  | .push src _ => Sys2Proof.Machine.execPush src s
  | .pop dst _ => Sys2Proof.Machine.execPop dst s
  | .int n _ => Sys2Proof.Machine.execInt n s
  | .cmp a b => Sys2Proof.Machine.execCmp a b s
  | .jmp target _ => Sys2Proof.Machine.execJmp target s
  | .je target _ => Sys2Proof.Machine.execJe target s
  | .jne target _ => Sys2Proof.Machine.execJne target s
  | .jl target _ => Sys2Proof.Machine.execJl target s
  | .jle target _ => Sys2Proof.Machine.execJle target s
  | .jg target _ => Sys2Proof.Machine.execJg target s
  | .jge target _ => Sys2Proof.Machine.execJge target s

end Sys2Proof.Machine
end

