-- ==== Sys2Proof/Machine/Fetch.lean ====
section
/-! DEFINITION. The fetch check (R131, R132), and placing a word where the next fetch reads it. -/

namespace Sys2Proof.Machine

/-- The fetch of a running machine (R131): at `ip = LOW_SP` it halts, above it faults with `InvalidFetch`, below it
reads exactly one word, in instruction view (R132). -/
def State.withFetch (s : State) (k : MemWord → Result) : Result :=
  if s.ip = s.lowSp then .next s.halt
  else if s.lowSp < s.ip then s.trap .invalidFetch
  else s.withRead s.ip.toNat k

/-- The index a word is placed at: ip, or 0 where ip names no word of the memory. -/
def State.fetchIndex (s : State) : Word :=
  if s.ip < s.capacity then s.ip else 0

/-- `LOW_SP` once the word at `a` is part of the program. -/
def State.lowSpOver (s : State) (a : Word) : Word :=
  if a < s.lowSp then s.lowSp else a + 1

/-- Load a word where the next step fetches (R257, log 4): the word stands at ip, the machine runs, `LOW_SP` lies
above ip, and sp is at least `LOW_SP` (R35), as the reset after a load leaves it (R250). A machine of no words gets
one. What already has these properties stays as it is. -/
def State.placeWord (s : State) (w : MemWord) : State :=
  let a := s.fetchIndex
  let low := s.lowSpOver a
  { s with
    ip := a
    lowSp := low
    sp := if s.sp < low then low else s.sp
    status := .running
    capacity := if s.capacity = 0 then 1 else s.capacity
    mem := s.mem.writeWord a.toNat w }

end Sys2Proof.Machine
end

