-- ==== Sys2Proof/Machine/Step.lean ====
section
/-! DEFINITION. The step (R141): fetch, decode, execute. The legality check (R135) is part of each instruction's meaning,
before its other checks; a word of the reserved opcode has no instruction and takes its fault here. -/

namespace Sys2Proof.Machine

/-- R141. A stopped machine's step changes nothing (R130). -/
def step (s : State) : Host.Outcome State Fault Refusal :=
  match s.status with
  | .halted | .faulted _ => .next s
  | .running =>
    s.withFetch fun w =>
      match decode w with
      | .ok i => exec i s
      | .error _ => s.trap .illegalInstruction

/-- `s` with the instruction of a table word stored where the next step fetches it (log 4). -/
def State.withFetchWord (s : State) (nbits w : Nat) : State :=
  s.placeWord (tableWord nbits w)

end Sys2Proof.Machine
end

