-- ==== Sys2Proof/Machine/Assembler.lean ====
section
/-! DEFINITION. The assembler (30_encoding.md section 6): the text form of a program, the Label Resolver and the
Instruction Encoder, and the memory image they produce. -/

namespace Sys2Proof.Machine

/-- A token: characters without whitespace (R100). -/
abbrev Token := List Char

/-- One line of a program text (R100). -/
abbrev Line := List Char

/-! ## Tokens (R100 to R102) -/

/-- The characters that separate tokens. The spec says `whitespace`: space, tab, carriage return and line feed are
taken (PRESUMED, unsafe, log 9). -/
def isBlank (c : Char) : Bool := c.isWhitespace

/-- Split at whitespace; `cur` is the token read so far. -/
def splitTokens : List Char → Token → List Token
  | [], cur => if cur = [] then [] else [cur]
  | c :: cs, cur =>
    if isBlank c then
      if cur = [] then splitTokens cs [] else cur :: splitTokens cs []
    else splitTokens cs (cur ++ [c])

/-- The tokens of a line. -/
def tokens (l : Line) : List Token := splitTokens l []

/-- Only a token that begins with `;` starts a comment (R101). -/
def startsComment (t : Token) : Bool := t.head? = some ';'

/-- A label-definition token: its last character is `:` (R102). -/
def isLabelDef (t : Token) : Bool := t.getLast? = some ':'

/-- The name a label-definition token defines: the token without its colon (R102). -/
def labelName (t : Token) : Token := t.dropLast

/-- The tokens that make an instruction: those before a comment, without the label-definition tokens (R103, R105). -/
def instrTokens (ts : List Token) : List Token :=
  (ts.takeWhile fun t => !startsComment t).filter fun t => !isLabelDef t

/-! ## Pass 1, the Label Resolver (R103, R104) -/

/-- The Label Table, the last definition first, so that a lookup finds the definition that wins (R104). -/
abbrev LabelTable := List (Token × Nat)

/-- One line of pass 1: the table and the count of instructions so far, before and after. -/
def resolveLine (acc : LabelTable × Nat) (l : Line) : LabelTable × Nat :=
  match tokens l with
  | [] => acc
  | t :: ts =>
    if startsComment t then acc
    else
      let table := if isLabelDef t then (labelName t, acc.2) :: acc.1 else acc.1
      let rest := if isLabelDef t then ts else t :: ts
      (table, if instrTokens rest = [] then acc.2 else acc.2 + 1)

/-- R103: the Label Table and the total instruction count `LOW_SP`. It never fails. -/
def resolveLabels (text : List Line) : LabelTable × Nat :=
  text.foldl resolveLine ([], 0)

/-! ## Pass 2, the Instruction Encoder (R105 to R112) -/

/-- The two errors of the assembler (R111). -/
inductive EncodeError where
  | unknownOpcode (token : Token)
  | invalidOperand (token : Token)
deriving DecidableEq, Repr

/-- `DecodeError{line, token}` (R111): the kind holds the token. -/
structure DecodeError where
  line : Nat
  kind : EncodeError
deriving DecidableEq, Repr

/-- The mnemonics, case-sensitive (R100, R105). -/
def mnemonicTable : List (Token × (Operand → Operand → Instr)) :=
  [("NOOP".toList, .noop), ("HALT".toList, .halt), ("MOV".toList, .mov), ("ADD".toList, .add), ("PUSH".toList, .push),
   ("POP".toList, .pop), ("INT".toList, .int), ("CMP".toList, .cmp), ("JMP".toList, .jmp), ("JE".toList, .je),
   ("JNE".toList, .jne), ("JL".toList, .jl), ("JLE".toList, .jle), ("JG".toList, .jg), ("JGE".toList, .jge)]

/-- The register names, case-sensitive (R107). -/
def registerTable : List (Token × Word) :=
  [("eax".toList, 1), ("ecx".toList, 2), ("edx".toList, 3), ("ebx".toList, 4)]

/-- `bits64` of R7: the 64-bit pattern of an integer. -/
def bits64 (n : Int) : Word := BitVec.ofInt 64 n

/-- One or more decimal digits, and their value (R108). -/
def parseDigits (ds : List Char) : Option Nat :=
  if ds ≠ [] ∧ ds.all Char.isDigit then some (ds.foldl (fun n c => 10 * n + (c.toNat - '0'.toNat)) 0) else none

/-- The integer a token stands for: an optional `-`, then digits, with a value a 64-bit signed number has (R108). -/
def parseInteger (t : Token) : Option Int :=
  let n : Option Int :=
    match t with
    | '-' :: ds => (parseDigits ds).map fun k => -(k : Int)
    | ds => (parseDigits ds).map fun k => (k : Int)
  n.filter fun k => -2 ^ 63 ≤ k && k ≤ 2 ^ 63 - 1

/-- R106: a register name, else an integer, else a known label, else an error. -/
def classify (table : LabelTable) (t : Token) : Except EncodeError Operand :=
  match registerTable.lookup t with
  | some r => .ok (.reg r)
  | none =>
    match parseInteger t with
    | some n => .ok (.imm (bits64 n))
    | none =>
      match table.lookup t with
      | some k => .ok (.addr (BitVec.ofNat 64 k))
      | none => .error (.invalidOperand t)

/-- The operand slots (R106, R110): the first two operand tokens in order, `None` where there is no token, an error for
a third. -/
def operandSlots (table : LabelTable) : List Token → Except EncodeError (Operand × Operand)
  | [] => .ok (.none, .none)
  | [a] =>
    match classify table a with
    | .ok x => .ok (x, .none)
    | .error e => .error e
  | a :: b :: rest =>
    match classify table a with
    | .error e => .error e
    | .ok x =>
      match classify table b with
      | .error e => .error e
      | .ok y =>
        match rest with
        | [] => .ok (x, y)
        | c :: _ => .error (.invalidOperand c)

/-- R105: the instruction of a line, none where the line has no token left, or the error at its first offending token. -/
def encodeLine (table : LabelTable) (l : Line) : Except EncodeError (Option Instr) :=
  match instrTokens (tokens l) with
  | [] => .ok none
  | m :: ops =>
    match mnemonicTable.lookup m with
    | none => .error (.unknownOpcode m)
    | some make =>
      match operandSlots table ops with
      | .ok (x, y) => .ok (some (make x y))
      | .error e => .error e

/-- The instructions of the lines in order, or the first error with its line's position `k`. -/
def encodeLines (table : LabelTable) : Nat → List Line → Except (Nat × EncodeError) (List Instr)
  | _, [] => .ok []
  | k, l :: ls =>
    match encodeLine table l with
    | .error e => .error (k, e)
    | .ok none => encodeLines table (k + 1) ls
    | .ok (some i) =>
      match encodeLines table (k + 1) ls with
      | .ok is => .ok (i :: is)
      | .error e => .error e

/-- A skipped line: blank, or one whose first token begins a comment (R101). -/
def isSkipped (l : Line) : Bool :=
  match tokens l with
  | [] => true
  | t :: _ => startsComment t

/-- The number of the line at position `k` of a text. Its base and whether skipped lines count are OPEN (R111, log 10). -/
def lineNumber (text : List Line) (k : Nat) : Nat :=
  (if Config.lineBaseIsOne then 1 else 0) +
    (if Config.skippedLinesCount then k else ((text.take k).filter fun l => !isSkipped l).length)

/-- The two passes: the image, or the error that prevents any instruction from running (R111, R112). -/
def assemble (text : List Line) : Except DecodeError (List MemWord) :=
  match encodeLines (resolveLabels text).1 0 text with
  | .ok is => .ok (is.map encode)
  | .error (k, e) => .error { line := lineNumber text k, kind := e }

end Sys2Proof.Machine
end

