-- ==== Sys2Proof/Machine/Boot.lean ====
section
/-! DEFINITION. The host's four transactions: construct, load, reset, run and result (R250 to R259), and the byte form
of a stored image (R61). -/

namespace Sys2Proof.Machine

/-! ## Construct and load -/

/-- Construct: fix `CAPACITY` (R256). -/
def State.construct (capacity : Word) : State :=
  { State.reset with capacity := capacity }

/-- Why the loader refuses an image (R253): the machine is then not started. -/
inductive LoadRefusal where
  /-- `CAPACITY` is not below 2^63. -/
  | capacityTooLarge
  /-- The image has more words than the memory. -/
  | imageTooLong
deriving DecidableEq, Repr

/-- Write the words of an image at index `a` and the indices after it. -/
def Memory.writeImage (m : Memory) (a : Nat) : List MemWord → Memory
  | [] => m
  | w :: ws => (m.writeWord a w).writeImage (a + 1) ws

/-- Load: write the image at index 0 and set `LOW_SP` to its length (R257), if it fits (R253). -/
def State.load (s : State) (image : List MemWord) : Except LoadRefusal State :=
  if 2 ^ 63 ≤ s.capacity.toNat then .error .capacityTooLarge
  else if s.capacity.toNat < image.length then .error .imageTooLong
  else .ok { s with mem := s.mem.writeImage 0 image, lowSp := BitVec.ofNat 64 image.length }

/-! ## Reset -/

/-- Reset (R250): registers and flags 0, `ip = 0`, `sp = LOW_SP`, running, the stack region 0, no output. The code
region, `LOW_SP` and `CAPACITY` stay as the load set them. It is the only way out of `Halted` and `Faulted` (R36). -/
def State.resetTransaction (s : State) : State :=
  { s with
    regs := Vector.replicate 16 0
    zf := false
    cf := false
    ip := 0
    sp := s.lowSp
    status := .running
    mem := s.mem.filter fun c => c.1 < wordBytes * s.lowSp.toNat
    out := [] }

/-- The order of events before the first instruction runs (R252): construct, load, reset. -/
def boot (capacity : Word) (image : List MemWord) : Except LoadRefusal State :=
  match (State.construct capacity).load image with
  | .ok s => .ok s.resetTransaction
  | .error r => .error r

/-- Why a program text does not come to run: it does not assemble (R111), or its image does not fit (R253). -/
inductive BootError where
  | assembly (e : DecodeError)
  | loading (r : LoadRefusal)
deriving DecidableEq, Repr

/-- R252 with its assembly: all or nothing (R111). -/
def bootText (capacity : Word) (text : List Line) : Except BootError State :=
  match assemble text with
  | .error e => .error (.assembly e)
  | .ok image =>
    match boot capacity image with
    | .ok s => .ok s
    | .error r => .error (.loading r)

/-! ## Run and result -/

/-- Step until the status is not `Running` (R9, R142, R258), at most `fuel` steps: a run need not end. -/
def runToEnd : Nat → State → Result
  | 0, s => .next s
  | fuel + 1, s =>
    match s.status with
    | .halted | .faulted _ => .next s
    | .running =>
      match step s with
      | .next t => runToEnd fuel t
      | .fault r => .fault r
      | .refused r => .refused r

/-- What a run that has ended gives back (R258, R44). -/
inductive RunResult where
  /-- `Halted{registers, memory}`; the flags are part of the Register File (R26). -/
  | halted (regs : Vector Word 16) (zf cf : Bool) (memory : Memory)
  /-- `Faulted{reason, ip}`. -/
  | faulted (reason : Cause) (ip : Word)
deriving DecidableEq, Repr

/-- The result the host reads once the status is not `Running` (R258); every other part of the state may be read too. -/
def State.result (s : State) : Option RunResult :=
  match s.status with
  | .running => none
  | .halted => some (.halted s.regs s.zf s.cf s.mem)
  | .faulted c => some (.faulted c s.ip)

/-! ## A stored image (R61) -/

/-- The bytes of an image: 17 a word, most significant first, the words in index order. -/
def imageBytes (image : List MemWord) : List Byte :=
  image.flatMap bytesOfWord

/-- The image a byte string stores; none if its length is no multiple of 17. -/
def imageOfBytes (bs : List Byte) : Option (List MemWord) :=
  if bs.length % wordBytes = 0 then
    some ((List.range (bs.length / wordBytes)).map fun k => wordOfBytes fun j => bs.getD (wordBytes * k + j) 0)
  else none

end Sys2Proof.Machine
end

