-- ==== Sys2Proof/Safety.lean ====
section
/-! DEFINITION. What a good state is, what a safe run is, and which fault the spec's priority order gives an instruction:
the terms the statements use. -/

namespace Sys2Proof

/-- One of the seven jumps (46_jumps.md). -/
def Instr.isJump : Instr → Bool
  | .jmp _ _ | .je _ _ | .jne _ _ | .jl _ _ | .jle _ _ | .jg _ _ | .jge _ _ => true
  | .noop _ _ | .halt _ _ | .mov _ _ | .add _ _ | .push _ _ | .pop _ _ | .int _ _ | .cmp _ _ => false

end Sys2Proof

namespace Sys2Proof.Machine

/-- What holds in every state of every run (R29, R35, R53, R71, R253), and what the model's form of memory and output
adds. -/
structure State.Inv (s : State) : Prop where
  /-- `LOW_SP <= CAPACITY` (R53, R253). -/
  lowSp_le_capacity : s.lowSp.toNat ≤ s.capacity.toNat
  /-- `CAPACITY < 2^63` (R253). -/
  capacity_lt : s.capacity.toNat < 2 ^ 63
  /-- `LOW_SP <= sp` (R35). -/
  lowSp_le_sp : s.lowSp.toNat ≤ s.sp.toNat
  /-- `sp <= CAPACITY` (R35). -/
  sp_le_capacity : s.sp.toNat ≤ s.capacity.toNat
  /-- The memory is in its canonical form (log 2). -/
  mem_wf : s.mem.wf = true
  /-- Nothing is stored outside `mem[0 .. CAPACITY-1]` (R39). -/
  mem_inside : ∀ c ∈ s.mem, c.1 < wordBytes * s.capacity.toNat
  /-- Bits 135 to 64 of every stack-region word are 0 (R71). -/
  stack_upper_zero : ∀ a, s.lowSp.toNat ≤ a → a < s.capacity.toNat → (s.mem.readWord a).extractLsb' 64 72 = 0
  /-- The flags are never both set (R29). -/
  flags_exclusive : ¬(s.zf = true ∧ s.cf = true)
  /-- Every output is a signed 64-bit value (R40). -/
  out_signed64 : ∀ v ∈ s.out, -2 ^ 63 ≤ v ∧ v < 2 ^ 63

/-- The machine has not faulted. -/
def State.notFaulted (s : State) : Bool :=
  match s.status with
  | .running | .halted => true
  | .faulted _ => false

/-- The word index lies in the code region (R53). -/
def State.inCode (s : State) (a : Nat) : Prop := a < s.lowSp.toNat

/-- The word index lies in the stack region (R53). -/
def State.inStack (s : State) (a : Nat) : Prop := s.lowSp.toNat ≤ a ∧ a < s.capacity.toNat

/-- Every instruction in the code region has existing registers in the slots it uses, as an assembled program has
(R212). -/
def State.codeNamesRegisters (s : State) : Prop :=
  ∀ a i, s.inCode a → decode (s.mem.readWord a) = .ok i → i.registersExist = true

/-- Every jump in the code region has an Address operand of at most `LOW_SP`, as one that names a label has (R211). -/
def State.codeJumpsToLabels (s : State) : Prop :=
  ∀ a i, s.inCode a → decode (s.mem.readWord a) = .ok i → i.isJump = true →
    ∃ target, i.slotA = .addr target ∧ target.toNat ≤ s.lowSp.toNat

/-- The number of values on the stack (R33). -/
def State.depth (s : State) : Nat := s.sp.toNat - s.lowSp.toNat

/-- The operand resolves to the value `v` in `s`; a Register whose index is 16 or more, and None, resolve to none. -/
def State.resolvesTo (s : State) (op : Operand) (v : Word) : Bool :=
  match op with
  | .none => false
  | .imm w => w = v
  | .addr w => w = v
  | .reg r => if h : r.toNat < 16 then s.regs[r.toNat] = v else false

/-- INT 4's cell number is no cell of the stack region (R176). -/
abbrev State.cellOutside (s : State) : Prop :=
  s.regs[2].toInt < 0 ∨ (s.capacity.toNat : Int) ≤ s.lowSp.toNat + s.regs[2].toInt

/-- The instruction finds the stack at its end: full for PUSH (R213), empty for POP (R214). -/
def State.stackStop (s : State) : Instr → Option Cause
  | .push _ _ => if s.sp = s.capacity then some .stackOverflow else none
  | .pop _ _ => if s.sp = s.lowSp then some .stackUnderflow else none
  | .noop _ _ | .halt _ _ | .mov _ _ | .add _ _ | .int _ _ | .cmp _ _ | .jmp _ _ | .je _ _ | .jne _ _ | .jl _ _
  | .jle _ _ | .jg _ _ | .jge _ _ => none

/-- The instruction is an INT whose code is 4 (R175). -/
def State.prints (s : State) : Instr → Bool
  | .int n _ => s.resolvesTo n 4
  | .noop _ _ | .halt _ _ | .mov _ _ | .add _ _ | .push _ _ | .pop _ _ | .cmp _ _ | .jmp _ _ | .je _ _ | .jne _ _
  | .jl _ _ | .jle _ _ | .jg _ _ | .jge _ _ => false

/-- The fault that instruction `i` meets in state `s`, the first in the order of R232; none where it meets none. -/
def State.firstFault (s : State) (i : Instr) : Option Cause :=
  if i.legal = false then some .illegalInstruction
  else if (s.stackStop i).isSome then s.stackStop i
  else if i.registersExist = false then some .registerOutOfRange
  else if s.prints i = true ∧ s.cellOutside then some .memoryOutOfRange
  else none

end Sys2Proof.Machine
end

