-- ==== Sys2Proof/Certificates/Slice0/Obligations.lean ====
section
/-! DEFINITION. The statements for the provers. Each docstring names the rule of `spec/` it formalises. -/

open Sys2Proof Sys2Proof.Machine

/-! ## Encoding and decoding (30_encoding.md) -/

/-- R94 (which the spec derives from R81, R83, R84): the number `encode` gives, the round trip through `decode`, and the
ten worked examples of the rule. -/
def Obligations.EncodeFollowsFormulaAndDecodesBack : Prop :=
  (∀ i : Instr,
    (encode i).toNat = i.opcode.toNat * 2 ^ 132 + i.slotA.tag.toNat * 2 ^ 130 + i.slotB.tag.toNat * 2 ^ 128 +
      i.slotA.field.toNat * 2 ^ 64 + i.slotB.field.toNat ∧
    (i.slotA = .none → i.slotA.field = 0) ∧ (i.slotB = .none → i.slotB.field = 0) ∧
    decode (encode i) = .ok i) ∧
  encode (.noop .none .none) = 0x0000000000000000000000000000000000 ∧
  encode (.halt .none .none) = 0x1000000000000000000000000000000000 ∧
  encode (.mov (.reg 1) (.imm 5)) = 0x2900000000000000010000000000000005 ∧
  encode (.add (.reg 1) (.imm 3)) = 0x3900000000000000010000000000000003 ∧
  encode (.push (.reg 1) .none) = 0x4800000000000000010000000000000000 ∧
  encode (.pop (.reg 1) .none) = 0x5800000000000000010000000000000000 ∧
  encode (.int (.imm 4) .none) = 0x6400000000000000040000000000000000 ∧
  encode (.cmp (.reg 1) (.reg 2)) = 0x7A00000000000000010000000000000002 ∧
  encode (.jl (.addr 6) .none) = 0xBC00000000000000060000000000000000 ∧
  encode (.add (.reg 2) (.imm (-1))) = 0x390000000000000002FFFFFFFFFFFFFFFF

/-- R81 to R88, R91: the opcode field alone selects the instruction, the tags and value fields give its operands, and
`OPC = 15` selects none. -/
def Obligations.OpcodeFieldSelectsInstruction : Prop :=
  (∀ f, operandOf 0 f = .none ∧ operandOf 1 f = .imm f ∧ operandOf 2 f = .reg f ∧ operandOf 3 f = .addr f) ∧
  ∀ w : MemWord,
    let a := operandOf (w.extractLsb' 130 2) (w.extractLsb' 64 64)
    let b := operandOf (w.extractLsb' 128 2) (w.extractLsb' 0 64)
    let opc := w.extractLsb' 132 4
    (opc = 0 → decode w = .ok (.noop a b)) ∧ (opc = 1 → decode w = .ok (.halt a b)) ∧
    (opc = 2 → decode w = .ok (.mov a b)) ∧ (opc = 3 → decode w = .ok (.add a b)) ∧
    (opc = 4 → decode w = .ok (.push a b)) ∧ (opc = 5 → decode w = .ok (.pop a b)) ∧
    (opc = 6 → decode w = .ok (.int a b)) ∧ (opc = 7 → decode w = .ok (.cmp a b)) ∧
    (opc = 8 → decode w = .ok (.jmp a b)) ∧ (opc = 9 → decode w = .ok (.je a b)) ∧
    (opc = 10 → decode w = .ok (.jne a b)) ∧ (opc = 11 → decode w = .ok (.jl a b)) ∧
    (opc = 12 → decode w = .ok (.jle a b)) ∧ (opc = 13 → decode w = .ok (.jg a b)) ∧
    (opc = 14 → decode w = .ok (.jge a b)) ∧ (opc = 15 → decode w = .error .reservedOpcode)

/-- R82, R86, and R94 which the spec derives from R81, R83, R84: a word that decodes, and whose None operands have
value field 0, is the encoding of what it decodes to: no bit of such a word is lost. -/
def Obligations.DecodedWordEncodesBack : Prop :=
  ∀ (w : MemWord) (i : Instr), decode w = .ok i →
    (taField w = 0 → vaField w = 0) → (tbField w = 0 → vbField w = 0) → encode i = w

/-- R86: the value field of a None operand is ignored by the decoder, and the encoder writes it as 0. -/
def Obligations.NoneValueFieldIsIgnored : Prop :=
  (∀ f, operandOf 0 f = .none) ∧
  (∀ w w' : MemWord, opcField w = opcField w' → taField w = taField w' → tbField w = tbField w' →
    (taField w ≠ 0 → vaField w = vaField w') → (tbField w ≠ 0 → vbField w = vbField w') → decode w = decode w') ∧
  (∀ i : Instr, (i.slotA = .none → vaField (encode i) = 0) ∧ (i.slotB = .none → vbField (encode i) = 0))

/-- Words written out from the encoding of R81: eleven that decode to an instruction, ten of them from section 2.1 of
`95_test_vectors.md` and HALT from its section 1 (R151), and the all-ones word of section 2.1, which is rejected
(R91). -/
def Obligations.TableWordsDecode : Prop :=
  decode 0x0A0000000000000063000000000000004D = .ok (.noop (.reg 99) (.reg 77)) ∧
  decode 0x1000000000000000000000000000000000 = .ok (.halt .none .none) ∧
  decode 0x2B00000000000000010000000000000006 = .ok (.mov (.reg 1) (.addr 6)) ∧
  decode 0x390000000000000002FFFFFFFFFFFFFFFF = .ok (.add (.reg 2) (.imm (-1))) ∧
  decode 0x44000000000000000A0000000000000000 = .ok (.push (.imm 10) .none) ∧
  decode 0x58000000000000000400000000DEADBEEF = .ok (.pop (.reg 4) .none) ∧
  decode 0x6800000000000000010000000000000000 = .ok (.int (.reg 1) .none) ∧
  decode 0x75FFFFFFFFFFFFFFFF0000000000000000 = .ok (.cmp (.imm (-1)) (.imm 0)) ∧
  decode 0x8800000000000000040000000000000000 = .ok (.jmp (.reg 4) .none) ∧
  decode 0xDC00000000000000020000000000000000 = .ok (.jg (.addr 2) .none) ∧
  decode 0xEC00000000000000050000000000000000 = .ok (.jge (.addr 5) .none) ∧
  decode 0xFFFFFFFFFFFFFFFFFFFFFFFFFFFFFFFFFF = .error .reservedOpcode

/-- R61: a stored image, 17 bytes a word with the most significant first, gives the image back; the bytes of
`MOV eax 5` are the ones the rule writes out. -/
def Obligations.StoredImageReadsBack : Prop :=
  (∀ image : List MemWord, imageOfBytes (imageBytes image) = some image) ∧
  bytesOfWord (encode (.mov (.reg 1) (.imm 5))) =
    [0x29, 0x00, 0x00, 0x00, 0x00, 0x00, 0x00, 0x00, 0x01, 0x00, 0x00, 0x00, 0x00, 0x00, 0x00, 0x00, 0x05]

/-! ## Operands and the register file -/

/-- R137, R138: how operands resolve. -/
def Obligations.OperandsResolve : Prop :=
  ∀ s : State,
    (∀ v, s.value (.imm v) = .ok v) ∧ (∀ a, s.value (.addr a) = .ok a) ∧
    (∀ (r : Word) (h : r.toNat < 16), s.value (.reg r) = .ok s.regs[r.toNat]) ∧
    (∀ r : Word, 16 ≤ r.toNat → s.value (.reg r) = .error .registerOutOfRange) ∧
    s.value .none = .error .illegalInstruction ∧
    (∀ (r : Word) (h : r.toNat < 16), dstreg (.reg r) = .ok ⟨r.toNat, h⟩) ∧
    (∀ r : Word, 16 ≤ r.toNat → dstreg (.reg r) = .error .registerOutOfRange) ∧
    (∀ x, dstreg (.imm x) = .error .illegalInstruction) ∧ (∀ x, dstreg (.addr x) = .error .illegalInstruction) ∧
    dstreg .none = .error .illegalInstruction

/-- R23, R22: a write of a register is read back, no other register and no other state changes, and no register is
hardwired: the law holds for all sixteen. -/
def Obligations.RegisterWriteReadsBack : Prop :=
  ∀ (s : State) (d : Fin 16) (v : Word),
    (s.writeReg d v).regs[d.val] = v ∧
    (∀ q : Fin 16, q ≠ d → (s.writeReg d v).regs[q.val] = s.regs[q.val]) ∧
    s.writeReg d v = { s with regs := (s.writeReg d v).regs }

/-! ## What each instruction does: the result of one that completes, and its frame -/

/-- R150: NOOP changes ip alone, whatever its slots hold. -/
def Obligations.NoopOnlyAdvances : Prop :=
  ∀ (a b : Operand) (s : State), exec (.noop a b) s = .next { s with ip := s.ip + 1 }

/-- R151, R152: HALT stops the machine, and after HALT at index k, `ip = k + 1`; nothing else changes. -/
def Obligations.HaltStopsAndAdvances : Prop :=
  ∀ (a b : Operand) (s : State), exec (.halt a b) s = .next { s with status := .halted, ip := s.ip + 1 }

/-- R155, R24: MOV writes the value of its source to any of the sixteen registers; only that register and ip change. -/
def Obligations.MovWritesDestination : Prop :=
  ∀ (s : State) (r : Word) (h : r.toNat < 16) (src : Operand) (v : Word), s.value src = .ok v →
    exec (.mov (.reg r) src) s = .next { s with regs := s.regs.set r.toNat v, ip := s.ip + 1 }

/-- R158, R159, R28: ADD writes the sum modulo 2^64, both operands read before the write (so a register added to itself
is doubled); only the destination and ip change, no flag does, and no sum faults. -/
def Obligations.AddWritesWrappedSum : Prop :=
  ∀ (s : State) (r : Word) (h : r.toNat < 16),
    (∀ (src : Operand) (v : Word), s.value src = .ok v →
      ∃ x : Word, x.toNat = (s.regs[r.toNat].toNat + v.toNat) % 2 ^ 64 ∧
        exec (.add (.reg r) src) s = .next { s with regs := s.regs.set r.toNat x, ip := s.ip + 1 }) ∧
    ∃ x : Word, x.toNat = (2 * s.regs[r.toNat].toNat) % 2 ^ 64 ∧
      exec (.add (.reg r) (.reg r)) s = .next { s with regs := s.regs.set r.toNat x, ip := s.ip + 1 }

/-- R165, R57, R51: PUSH stores the datum, zero-extended, in the word at sp, then increments sp. Only that word, sp and
ip change: every byte outside the word at `s.sp` reads as before. -/
def Obligations.PushStoresAtSpAndIncrements : Prop :=
  ∀ (s : State) (src b : Operand) (v : Word), s.value src = .ok v → s.sp.toNat < s.capacity.toNat →
    s.mem.wf = true →
    ∃ t, exec (.push src b) s = .next t ∧
      t = { s with mem := t.mem, sp := s.sp + 1, ip := s.ip + 1 } ∧
      (t.mem.readWord s.sp.toNat).extractLsb' 0 64 = v ∧ (t.mem.readWord s.sp.toNat).extractLsb' 64 72 = 0 ∧
      (∀ n, n < 17 * s.sp.toNat ∨ 17 * s.sp.toNat + 17 ≤ n → t.mem.readByte n = s.mem.readByte n) ∧
      (∀ a, a ≠ s.sp.toNat → t.mem.readWord a = s.mem.readWord a)

/-- R166, R58: POP decrements sp, then loads the low 64 bits of the word at the new sp into any of the sixteen
registers. Only that register, sp and ip change; all of memory, the cell just read too, stays. -/
def Obligations.PopLoadsTopAndDecrements : Prop :=
  ∀ (s : State) (r : Word) (h : r.toNat < 16) (b : Operand), s.sp ≠ s.lowSp → (s.sp - 1).toNat < s.capacity.toNat →
    exec (.pop (.reg r) b) s = .next
      { s with
        sp := s.sp - 1
        regs := s.regs.set r.toNat ((s.mem.readWord (s.sp - 1).toNat).extractLsb' 0 64)
        ip := s.ip + 1 }

/-- R178: INT with a code other than 4 only advances ip; its operand is resolved first all the same. -/
def Obligations.UnrecognisedInterruptDoesNothing : Prop :=
  ∀ (s : State) (b : Operand),
    (∀ (n : Operand) (v : Word), s.value n = .ok v → v ≠ 4 → exec (.int n b) s = .next { s with ip := s.ip + 1 }) ∧
    (∀ r : Word, 16 ≤ r.toNat →
      exec (.int (.reg r) b) s = .next { s with status := .faulted .registerOutOfRange })

/-- R175 to R177, R59: INT with code 4 appends the signed datum of cell number `signed(x[2])` of the stack region, a
cell at or above sp too; outside the region it faults `MemoryOutOfRange`. Nothing else changes. -/
def Obligations.InterruptFourPrintsStackCell : Prop :=
  ∀ (s : State) (n b : Operand), s.value n = .ok 4 →
    (∀ a : Nat, 0 ≤ s.regs[2].toInt → s.lowSp.toNat + s.regs[2].toInt = a → a < s.capacity.toNat →
      exec (.int n b) s = .next
        { s with out := s.out ++ [((s.mem.readWord a).extractLsb' 0 64).toInt], ip := s.ip + 1 }) ∧
    (s.regs[2].toInt < 0 ∨ s.capacity.toNat ≤ s.lowSp.toNat + s.regs[2].toInt →
      exec (.int n b) s = .next { s with status := .faulted .memoryOutOfRange })

/-- R185: CMP sets ZF exactly when the patterns are equal and CF exactly when the first is less as signed numbers, which
are the zero test and the sign of the exact difference; only the flags and ip change. -/
def Obligations.CmpSetsZeroAndLess : Prop :=
  ∀ (s : State) (a b : Operand) (va vb : Word), s.value a = .ok va → s.value b = .ok vb →
    exec (.cmp a b) s = .next
      { s with zf := decide (va = vb), cf := decide (va.toInt < vb.toInt), ip := s.ip + 1 } ∧
    (va = vb ↔ va.toInt - vb.toInt = 0) ∧ (va.toInt < vb.toInt ↔ va.toInt - vb.toInt < 0)

/-- R186: a CMP that completes assigns both flags from this comparison alone, whatever the flags held. -/
def Obligations.CmpForgetsOldFlags : Prop :=
  ∀ (s : State) (a b : Operand) (va vb : Word), s.value a = .ok va → s.value b = .ok vb → ∀ z c z' c' : Bool,
    exec (.cmp a b) { s with zf := z, cf := c } = exec (.cmp a b) { s with zf := z', cf := c' } ∧
    ∃ t, exec (.cmp a b) { s with zf := z, cf := c } = .next t ∧
      t.zf = decide (va.toInt - vb.toInt = 0) ∧ t.cf = decide (va.toInt - vb.toInt < 0)

/-- R190, R191: JMP writes the whole 64-bit value of its target to ip, unchecked; nothing else changes. -/
def Obligations.JmpWritesTarget : Prop :=
  ∀ (s : State) (target b : Operand) (v : Word), s.value target = .ok v →
    exec (.jmp target b) s = .next { s with ip := v }

/-- R192 to R198: each conditional jump, in all four flag states, writes its target to ip when its condition holds and
advances ip when it does not; nothing else changes. -/
def Obligations.ConditionalJumpsFollowFlags : Prop :=
  ∀ (s : State) (target b : Operand) (v : Word), s.value target = .ok v →
    exec (.je target b) s = .next { s with ip := if s.zf = true then v else s.ip + 1 } ∧
    exec (.jne target b) s = .next { s with ip := if s.zf = false then v else s.ip + 1 } ∧
    exec (.jl target b) s = .next { s with ip := if s.zf = false ∧ s.cf = true then v else s.ip + 1 } ∧
    exec (.jle target b) s = .next { s with ip := if s.zf = true ∨ s.cf = true then v else s.ip + 1 } ∧
    exec (.jg target b) s = .next { s with ip := if s.zf = false ∧ s.cf = false then v else s.ip + 1 } ∧
    exec (.jge target b) s = .next { s with ip := if s.zf = true ∨ s.cf = false then v else s.ip + 1 }

/-- R187 (which the spec derives from R185, R192): the flags after a CMP in each of the three relations, and which
conditional jumps of the state it leaves are then taken: each goes by the signed order of the two values compared. -/
def Obligations.JumpsAfterCmpFollowSignedOrder : Prop :=
  ∀ (s : State) (a b target c : Operand) (va vb v : Word),
    s.value a = .ok va → s.value b = .ok vb → s.value target = .ok v →
    ∃ t, exec (.cmp a b) s = .next t ∧
      (va.toInt = vb.toInt → t.zf = true ∧ t.cf = false) ∧
      (va.toInt < vb.toInt → t.zf = false ∧ t.cf = true) ∧
      (vb.toInt < va.toInt → t.zf = false ∧ t.cf = false) ∧
      exec (.je target c) t = .next { t with ip := if va.toInt = vb.toInt then v else t.ip + 1 } ∧
      exec (.jne target c) t = .next { t with ip := if va.toInt ≠ vb.toInt then v else t.ip + 1 } ∧
      exec (.jl target c) t = .next { t with ip := if va.toInt < vb.toInt then v else t.ip + 1 } ∧
      exec (.jle target c) t = .next { t with ip := if va.toInt ≤ vb.toInt then v else t.ip + 1 } ∧
      exec (.jg target c) t = .next { t with ip := if va.toInt > vb.toInt then v else t.ip + 1 } ∧
      exec (.jge target c) t = .next { t with ip := if va.toInt ≥ vb.toInt then v else t.ip + 1 }

/-- R167 (a), derived by the spec from R165 and R166: PUSH of a value followed at once by POP leaves the value in the
register, sp as it was before the PUSH, and the cell at that sp holding the value. -/
def Obligations.PopAfterPushReturnsValue : Prop :=
  ∀ (s : State) (src b b' : Operand) (v r : Word) (h : r.toNat < 16), s.Inv → s.value src = .ok v →
    s.sp ≠ s.capacity →
    ∃ t u, exec (.push src b) s = .next t ∧ exec (.pop (.reg r) b') t = .next u ∧
      u.regs[r.toNat] = v ∧ u.sp = s.sp ∧ (u.mem.readWord s.sp.toNat).extractLsb' 0 64 = v

/-- R167 (b), derived by the spec from R165 and R166: after `PUSH a; PUSH b`, POP gives b and the next POP gives a. -/
def Obligations.StackIsLastInFirstOut : Prop :=
  ∀ (s : State) (a b x : Operand) (va vb r q : Word) (hr : r.toNat < 16) (hq : q.toNat < 16), s.Inv →
    s.value a = .ok va → s.value b = .ok vb → s.sp.toNat + 2 ≤ s.capacity.toNat →
    ∃ s1 s2 s3 s4, exec (.push a x) s = .next s1 ∧ exec (.push b x) s1 = .next s2 ∧
      exec (.pop (.reg r) x) s2 = .next s3 ∧ exec (.pop (.reg q) x) s3 = .next s4 ∧
      s3.regs[r.toNat] = vb ∧ s4.regs[q.toNat] = va ∧ s4.sp = s.sp

/-- R24, R28, R34, R40, and R167 (d) which the spec derives from R165 and R166: of all instructions only MOV, ADD and
POP change a general register, only CMP a flag, only PUSH and POP sp, only PUSH a byte of memory, only INT the output;
none changes `LOW_SP` or `CAPACITY`. -/
def Obligations.OnlyNamedInstructionsWriteEachPart : Prop :=
  ∀ (i : Instr) (s t : State), exec i s = .next t →
    (i.opcode ≠ 2 ∧ i.opcode ≠ 3 ∧ i.opcode ≠ 5 → t.regs = s.regs) ∧
    (i.opcode ≠ 7 → t.zf = s.zf ∧ t.cf = s.cf) ∧
    (i.opcode ≠ 4 ∧ i.opcode ≠ 5 → t.sp = s.sp) ∧
    (i.opcode ≠ 4 → ∀ n, t.mem.readByte n = s.mem.readByte n) ∧
    (i.opcode ≠ 6 → t.out = s.out) ∧
    t.lowSp = s.lowSp ∧ t.capacity = s.capacity

/-- R90, and R139 which the spec derives from it: a slot an opcode does not use has no effect on what the instruction
does, whatever it holds. -/
def Obligations.IgnoredSlotsHaveNoEffect : Prop :=
  ∀ (s : State) (x a b c d : Operand),
    exec (.noop a b) s = exec (.noop c d) s ∧ exec (.halt a b) s = exec (.halt c d) s ∧
    exec (.push x b) s = exec (.push x d) s ∧ exec (.pop x b) s = exec (.pop x d) s ∧
    exec (.int x b) s = exec (.int x d) s ∧ exec (.jmp x b) s = exec (.jmp x d) s ∧
    exec (.je x b) s = exec (.je x d) s ∧ exec (.jne x b) s = exec (.jne x d) s ∧
    exec (.jl x b) s = exec (.jl x d) s ∧ exec (.jle x b) s = exec (.jle x d) s ∧
    exec (.jg x b) s = exec (.jg x d) s ∧ exec (.jge x b) s = exec (.jge x d) s

/-! ## Faults (60_exceptions.md) -/

/-- R213: PUSH with `sp = CAPACITY` faults `StackOverflow`; nothing is written and sp stays `CAPACITY`. A PUSH without
an operand is illegal first (R232). -/
def Obligations.PushOnFullStackOverflows : Prop :=
  ∀ (s : State) (src b : Operand), s.sp = s.capacity →
    (src ≠ .none → exec (.push src b) s = .next { s with status := .faulted .stackOverflow }) ∧
    exec (.push .none b) s = .next { s with status := .faulted .illegalInstruction }

/-- R214: POP with `sp = LOW_SP` faults `StackUnderflow`, whatever register it names; sp stays and no register is
written. A POP whose operand is no Register is illegal first (R232). -/
def Obligations.PopOnEmptyStackUnderflows : Prop :=
  ∀ (s : State) (b : Operand), s.sp = s.lowSp →
    (∀ r : Word, exec (.pop (.reg r) b) s = .next { s with status := .faulted .stackUnderflow }) ∧
    (∀ dst : Operand, dst.isRegister = false →
      exec (.pop dst b) s = .next { s with status := .faulted .illegalInstruction })

/-- R199: a conditional jump's target is checked whether or not the jump is taken; reading its register has no effect
besides the check. -/
def Obligations.UntakenJumpStillChecksTarget : Prop :=
  ∀ (s : State) (b : Operand), ∀ j ∈ [Instr.je, Instr.jne, Instr.jl, Instr.jle, Instr.jg, Instr.jge],
    exec (j .none b) s = .next { s with status := .faulted .illegalInstruction } ∧
    (∀ r : Word, 16 ≤ r.toNat → exec (j (.reg r) b) s = .next { s with status := .faulted .registerOutOfRange }) ∧
    (∀ (r : Word) (h : r.toNat < 16), exec (j (.reg r) b) s = .next { s with ip := s.regs[r.toNat] } ∨
      exec (j (.reg r) b) s = .next { s with ip := s.ip + 1 })

/-- R135: which fetched words take `IllegalInstruction`: exactly those whose opcode is reserved or whose operand kinds
do not fit, whatever other fault the instruction would meet. -/
def Obligations.IllegalWordsAreExactlyTheListed : Prop :=
  ∀ s : State, s.status = .running → s.ip < s.lowSp → s.ip.toNat < s.capacity.toNat →
    let w := s.mem.readWord s.ip.toNat
    let opc := (w.extractLsb' 132 4).toNat
    let ta := w.extractLsb' 130 2
    let tb := w.extractLsb' 128 2
    (step s = .next { s with status := .faulted .illegalInstruction } ↔
      opc = 15 ∨ (opc ∈ [2, 3, 5] ∧ ta ≠ 2) ∨ (opc ∈ [2, 3, 7] ∧ tb = 0) ∨
        (opc ∈ [4, 6, 7, 8, 9, 10, 11, 12, 13, 14] ∧ ta = 0))

/-- R232: in a good state an instruction that meets fault conditions takes the first of the rule's order
(`State.firstFault`); before all of them comes the fetch's own. That one which meets none completes, without a fault,
rests on R210 and R141 (and on R220, which the spec derives from the instruction rules), not on R232. -/
def Obligations.FirstFaultInOrderIsReported : Prop :=
  (∀ s : State, s.status = .running → s.lowSp < s.ip →
    step s = .next { s with status := .faulted .invalidFetch }) ∧
  ∀ (s : State) (i : Instr), s.Inv → s.status = .running →
    (∀ c, s.firstFault i = some c → exec i s = .next { s with status := .faulted c }) ∧
    (s.firstFault i = none →
      ∃ t, exec i s = .next t ∧ (t.status = .running ∨ (t.status = .halted ∧ i.opcode = 1)))

/-- R216, R217: a step that faults changes the status and nothing else, from any running state. -/
def Obligations.FaultChangesStatusAlone : Prop :=
  ∀ (s t : State) (c : Cause), s.status = .running → step s = .next t → t.status = .faulted c →
    t = { s with status := .faulted c }

/-- R27, R37, R210: the host's view of the registers `STATUS` and `FLAGS`; `STATE = 3` and `CAUSE = 7` never occur. -/
def Obligations.StatusAndFlagsRegistersEncode : Prop :=
  Status.running.word = 0 ∧ Status.halted.word = 1 ∧
  (∀ c : Cause, (Status.faulted c).word = c.code ++ (2 : BitVec 2)) ∧
  [Cause.invalidFetch, .registerOutOfRange, .stackOverflow, .stackUnderflow, .illegalInstruction,
    .memoryOutOfRange].map Cause.code = [1, 2, 3, 4, 5, 6] ∧
  (∀ t : Status, t.word.extractLsb' 0 2 ≠ 3 ∧ t.word.extractLsb' 2 3 ≠ 7) ∧
  ∀ s : State, s.flagsWord.getLsbD 0 = s.zf ∧ s.flagsWord.getLsbD 1 = s.cf

/-! ## The step (40_fetch_decode_dispatch.md) -/

/-- R130: a stopped machine's step changes nothing. -/
def Obligations.StoppedMachineStays : Prop :=
  ∀ s : State, s.status ≠ .running → step s = .next s

/-- R131, and R132 which the spec derives from it: the fetch check. A running machine at `LOW_SP` halts (an empty
program at once), above it, or at an index negative as signed, faults `InvalidFetch`, and below it fetches the word at
ip. -/
def Obligations.FetchCheckOrdersIpAgainstLowSp : Prop :=
  ∀ s : State, s.status = .running →
    (s.ip = s.lowSp → step s = .next { s with status := .halted }) ∧
    (s.lowSp < s.ip → step s = .next { s with status := .faulted .invalidFetch }) ∧
    (s.lowSp.toNat < 2 ^ 63 → s.ip.toInt < 0 → step s = .next { s with status := .faulted .invalidFetch }) ∧
    (s.ip < s.lowSp → s.ip.toNat < s.capacity.toNat →
      (∀ i, decode (s.mem.readWord s.ip.toNat) = .ok i → step s = exec i s) ∧
      (∀ r, decode (s.mem.readWord s.ip.toNat) = .error r →
        step s = .next { s with status := .faulted .illegalInstruction }))

/-- R133, R136, R141: a step of a running machine whose fetched word decodes runs the decoded instruction, and does
nothing around it. -/
def Obligations.StepRunsDecodedInstruction : Prop :=
  ∀ (s : State) (i : Instr), s.status = .running → s.ip < s.lowSp → s.ip.toNat < s.capacity.toNat →
    decode (s.mem.readWord s.ip.toNat) = .ok i → step s = exec i s

/-- The model's choice, log 4 (R257): a word placed by `withFetchWord`, which stands for a load, is the next one run,
whatever state it is placed in. -/
def Obligations.PlacedWordIsRunNext : Prop :=
  ∀ (s : State) (nbits w : Nat) (i : Instr), s.mem.wf = true → decodeTableWord nbits w = some i →
    step (s.withFetchWord nbits w) = exec i (s.withFetchWord nbits w)

/-- R31, R140, and R32 which the spec derives from R31: a step that runs an instruction other than a jump, and does
not fault, adds 1 to ip without wrapping and leaves it at most `LOW_SP`. -/
def Obligations.IpStepsByOneWithinProgram : Prop :=
  ∀ (s t : State) (i : Instr), s.Inv → s.status = .running → s.ip < s.lowSp →
    decode (s.mem.readWord s.ip.toNat) = .ok i → i.isJump = false → step s = .next t → t.notFaulted = true →
    t.ip.toNat = s.ip.toNat + 1 ∧ t.ip.toNat ≤ t.lowSp.toNat

/-- R142: the three ways a run ends, and what ip holds then; and the result the host then reads (R258, R44): the
registers and the memory of a halted machine, the reason and ip of a faulted one. That the halted result lists the
flags beside the registers is the model's choice (log 18). -/
def Obligations.RunEndsInThreeWays : Prop :=
  ∀ s t : State, s.status = .running → step s = .next t → t.status ≠ .running →
    ((t.status = .halted ∧ s.ip < s.lowSp ∧ (∃ a b, decode (s.mem.readWord s.ip.toNat) = .ok (.halt a b)) ∧
        t.ip = s.ip + 1 ∧ t.result = some (.halted t.regs t.zf t.cf t.mem)) ∨
      (t.status = .halted ∧ s.ip = s.lowSp ∧ t.ip = s.lowSp ∧ t.result = some (.halted t.regs t.zf t.cf t.mem)) ∨
      (∃ c, t.status = .faulted c ∧ t.ip = s.ip ∧ t.result = some (.faulted c s.ip))) ∧
    t.result ≠ none

/-! ## Invariants and isolation -/

/-- R35, R53, the spec's inferences R29 and R71, and the memory's canonical form (log 2): every step from a good state
leaves a good state. -/
def Obligations.StepKeepsGoodState : Prop :=
  ∀ s t : State, s.Inv → step s = .next t → t.Inv

/-- R42, R35: the state after reset is good. That `State.reset` has `LOW_SP = 0` and `CAPACITY = 4` is the model's
choice (log 3), and so is the canonical form of its memory (log 2). -/
def Obligations.ResetIsGoodState : Prop :=
  State.reset.Inv

/-- R141, R52: from a good state every step answers a next state: the memory primitives are never called out of range,
and no instruction is refused. -/
def Obligations.StepFromGoodStateAlwaysGoesOn : Prop :=
  ∀ s : State, s.Inv → ∃ t, step s = .next t

/-- R53, and R68 which the spec derives from R56 and R57: no step changes a word of the code region, `LOW_SP` or
`CAPACITY`. -/
def Obligations.CodeRegionNeverChanges : Prop :=
  ∀ s t : State, s.Inv → step s = .next t →
    t.lowSp = s.lowSp ∧ t.capacity = s.capacity ∧ ∀ a, s.inCode a → t.mem.readWord a = s.mem.readWord a

/-- R60, and R70 which the spec derives from R55 to R59: no instruction reads the code region as data: with any other
code region its effect is the same on everything but memory, and on every word of the stack region. -/
def Obligations.InstructionsNeverReadCode : Prop :=
  ∀ (s t : State) (m : Memory) (i : Instr), s.Inv → m.wf = true →
    (∀ a, s.inStack a → m.readWord a = s.mem.readWord a) → exec i s = .next t →
    ∃ t', exec i { s with mem := m } = .next t' ∧ t' = { t with mem := t'.mem } ∧
      ∀ a, s.inStack a → t'.mem.readWord a = t.mem.readWord a

/-- R142, R35, R53, and R68 which the spec derives from R56 and R57: a run of any length from a good state goes on or
has ended, in a good state; the code region it leaves is the one it started with. A good state has the memory's
canonical form, which is the model's choice (log 2), and what R29 and R71 say, inferences of the spec. -/
def Obligations.RunFromGoodStateStaysGood : Prop :=
  ∀ (fuel : Nat) (s : State), s.Inv →
    ∃ t, runToEnd fuel s = .next t ∧ t.Inv ∧ ∀ a, s.inCode a → t.mem.readWord a = s.mem.readWord a

/-- R212: a good state whose code names existing registers only keeps that, and no step from it ends in
`RegisterOutOfRange`. A good state has the memory's canonical form, the model's choice (log 2), and what R29 and R71
say, inferences of the spec. -/
def Obligations.StepKeepsCodeNamingRegisters : Prop :=
  ∀ s t : State, s.Inv → s.codeNamesRegisters → s.status ≠ .faulted .registerOutOfRange → step s = .next t →
    t.Inv ∧ t.codeNamesRegisters ∧ t.status ≠ .faulted .registerOutOfRange

/-- R211, R31: a good state whose jumps all go to labels, with ip at most `LOW_SP`, keeps that, and no step from it ends
in `InvalidFetch`. A good state has the memory's canonical form, the model's choice (log 2), and what R29 and R71 say,
inferences of the spec. -/
def Obligations.StepKeepsIpWithinLabelledCode : Prop :=
  ∀ s t : State, s.Inv → s.codeJumpsToLabels → s.ip.toNat ≤ s.lowSp.toNat → s.status ≠ .faulted .invalidFetch →
    step s = .next t →
    t.Inv ∧ t.codeJumpsToLabels ∧ t.ip.toNat ≤ t.lowSp.toNat ∧ t.status ≠ .faulted .invalidFetch

/-- R212: an assembled program never takes `RegisterOutOfRange`, in a run of any length. -/
def Obligations.AssembledProgramsNeverNameMissingRegisters : Prop :=
  ∀ (text : List Line) (capacity : Word) (s t : State) (fuel : Nat),
    bootText capacity text = .ok s → runToEnd fuel s = .next t → t.status ≠ .faulted .registerOutOfRange

/-- R211: a program whose jumps all have Address operands of at most `LOW_SP`, as labels have, never takes
`InvalidFetch`, in a run of any length. -/
def Obligations.LabelJumpsNeverLeaveProgram : Prop :=
  ∀ (capacity : Word) (image : List MemWord) (s t : State) (fuel : Nat), boot capacity image = .ok s →
    (∀ w ∈ image, ∀ i, decode w = .ok i → i.isJump = true → ∃ a, i.slotA = .addr a ∧ a.toNat ≤ image.length) →
    runToEnd fuel s = .next t → t.status ≠ .faulted .invalidFetch

/-! ## Reset, load, boot (70_reset_and_hazards.md) -/

/-- R250: what the reset transaction sets, and what it leaves as the load set it. -/
def Obligations.ResetTransactionSetsInitialState : Prop :=
  ∀ s : State,
    (∀ r : Fin 16, s.resetTransaction.regs[r.val] = 0) ∧
    s.resetTransaction.zf = false ∧ s.resetTransaction.cf = false ∧
    s.resetTransaction.ip = 0 ∧ s.resetTransaction.sp = s.lowSp ∧ s.resetTransaction.status = .running ∧
    (∀ a, s.lowSp.toNat ≤ a → s.resetTransaction.mem.readWord a = 0) ∧ s.resetTransaction.out = [] ∧
    (∀ a, a < s.lowSp.toNat → s.resetTransaction.mem.readWord a = s.mem.readWord a) ∧
    s.resetTransaction.lowSp = s.lowSp ∧ s.resetTransaction.capacity = s.capacity

/-- R42: the values `State.reset` has where the spec gives one for a machine that holds no program. -/
def Obligations.ResetRegistersHoldSpecValues : Prop :=
  (∀ r : Fin 16, State.reset.regs[r.val] = 0) ∧ State.reset.zf = false ∧ State.reset.cf = false ∧
  State.reset.ip = 0 ∧ State.reset.sp = State.reset.lowSp ∧ State.reset.status = .running ∧
  (∀ a, State.reset.mem.readWord a = 0) ∧ State.reset.out = []

/-- The model's choice, log 3: `State.reset` is the machine booted with the empty program (`LOW_SP = 0`) and
`Config.resetCapacity`. -/
def Obligations.ResetIsBootOfEmptyProgram : Prop :=
  boot Config.resetCapacity [] = .ok State.reset

/-- R253: the loader takes exactly the images that fit. R257, R250, R42: a booted machine holds the image in its code
region, zeros in its stack region, and runs at index 0 with an empty stack. It is a good state, which has the memory's
canonical form, the model's choice (log 2), and what R29 and R71 say, inferences of the spec. -/
def Obligations.BootedMachineHoldsItsImage : Prop :=
  ∀ (capacity : Word) (image : List MemWord),
    ((∃ s, boot capacity image = .ok s) ↔ image.length ≤ capacity.toNat ∧ capacity.toNat < 2 ^ 63) ∧
    ∀ s, boot capacity image = .ok s →
      s.capacity = capacity ∧ s.lowSp.toNat = image.length ∧ s.ip = 0 ∧ s.sp = s.lowSp ∧ s.status = .running ∧
      (∀ (k : Nat) (h : k < image.length), s.mem.readWord k = image[k]) ∧
      (∀ a, image.length ≤ a → s.mem.readWord a = 0) ∧ s.Inv

/-! ## The assembler (30_encoding.md section 6) -/

/-- R114 (which the spec derives from R103, R106, R94): the worked program, its label table, its count and its image. -/
def Obligations.WorkedProgramAssembles : Prop :=
  let text := ["MOV eax 3".toList, "MOV ecx 5".toList, "CMP eax ecx".toList, "JL less".toList, "MOV edx 0".toList,
    "HALT".toList, "less: MOV edx 1".toList, "HALT".toList]
  resolveLabels text = ([("less".toList, 6)], 8) ∧
  assemble text = .ok
    [0x2900000000000000010000000000000003, 0x2900000000000000020000000000000005,
     0x7A00000000000000010000000000000002, 0xBC00000000000000060000000000000000,
     0x2900000000000000030000000000000000, 0x1000000000000000000000000000000000,
     0x2900000000000000030000000000000001, 0x1000000000000000000000000000000000]

/-- R112: the number of instructions written is the count pass 1 produced. -/
def Obligations.BothPassesCountAlike : Prop :=
  ∀ (text : List Line) (image : List MemWord), assemble text = .ok image →
    image.length = (resolveLabels text).2

/-- R103, R104: every label resolves to an index of at most `LOW_SP`. -/
def Obligations.LabelsLieWithinProgram : Prop :=
  ∀ text : List Line, ∀ entry ∈ (resolveLabels text).1, entry.2 ≤ (resolveLabels text).2

/-- R104, R102: a label resolves to the count of instructions before the last line of the text that defines it,
wherever earlier definitions of the name stand. -/
def Obligations.LastLabelDefinitionWins : Prop :=
  ∀ (before rest : List Line) (l : Line) (t : Token) (ts : List Token),
    tokens l = t :: ts → startsComment t = false → isLabelDef t = true →
    (∀ l' ∈ rest, ∀ t' ts', tokens l' = t' :: ts' → startsComment t' = false → isLabelDef t' = true →
      labelName t' ≠ labelName t) →
    (resolveLabels (before ++ l :: rest)).1.lookup (labelName t) = some (resolveLabels before).2

/-- R255 (which the spec derives from R93, R107, R112): what holds of every word of an assembled image: it decodes
(its opcode is not 15), the value field of a None operand is 0, register indices are 1 to 4 and Address operands at
most `LOW_SP`. -/
def Obligations.AssembledImagesAreTame : Prop :=
  ∀ (text : List Line) (image : List MemWord), assemble text = .ok image → ∀ w ∈ image,
    ∃ i, decode w = .ok i ∧ encode i = w ∧ w.extractLsb' 132 4 ≠ 15 ∧
      (taField w = 0 → vaField w = 0) ∧ (tbField w = 0 → vbField w = 0) ∧
      ∀ o ∈ [i.slotA, i.slotB],
        (∀ r, o = .reg r → 1 ≤ r.toNat ∧ r.toNat ≤ 4) ∧ (∀ a, o = .addr a → a.toNat ≤ image.length)

/-- R111, R105: a line whose first instruction token is no mnemonic prevents execution from starting: no machine is
booted from the text, with any capacity. -/
def Obligations.UnknownMnemonicPreventsStart : Prop :=
  ∀ (text : List Line) (l : Line) (m : Token) (ops : List Token), l ∈ text → instrTokens (tokens l) = m :: ops →
    mnemonicTable.lookup m = none → ∀ capacity, ∃ e, bootText capacity text = .error (.assembly e)
end

