-- ==== Sys2Proof/Laws/Decode.lean ====
section
/-! SUPPORT. The fields of an encoded word, and the bytes of a word. -/

namespace Sys2Proof

/-! ## Fields of an encoded word -/

/-- The five fields of the number R94 packs. -/
theorem packed_fields {o ta tb va vb : Nat} (ho : o < 16) (hta : ta < 4) (htb : tb < 4) (hva : va < 2 ^ 64)
    (hvb : vb < 2 ^ 64) {x : Nat} (hx : x = o * 2 ^ 132 + ta * 2 ^ 130 + tb * 2 ^ 128 + va * 2 ^ 64 + vb) :
    x < 2 ^ 136 ∧ x / 2 ^ 132 % 2 ^ 4 = o ∧ x / 2 ^ 130 % 2 ^ 2 = ta ∧ x / 2 ^ 128 % 2 ^ 2 = tb ∧
      x / 2 ^ 64 % 2 ^ 64 = va ∧ x / 2 ^ 0 % 2 ^ 64 = vb := by
  have e1 : x / 2 ^ 64 = (o * 2 ^ 4 + ta * 2 ^ 2 + tb) * 2 ^ 64 + va := by omega
  have e2 : x / 2 ^ 128 = o * 2 ^ 4 + ta * 2 ^ 2 + tb := by
    rw [show 2 ^ 128 = 2 ^ 64 * 2 ^ 64 by norm_num, ← Nat.div_div_eq_div_mul, e1]; omega
  have e3 : x / 2 ^ 130 = o * 2 ^ 2 + ta := by
    rw [show 2 ^ 130 = 2 ^ 128 * 2 ^ 2 by norm_num, ← Nat.div_div_eq_div_mul, e2]; omega
  have e4 : x / 2 ^ 132 = o := by
    rw [show 2 ^ 132 = 2 ^ 130 * 2 ^ 2 by norm_num, ← Nat.div_div_eq_div_mul, e3]; omega
  rw [e4, e3, e2, e1]
  omega

/-- What `packed_fields` says of an instruction's word. -/
theorem encode_packed (i : Instr) :
    (encode i).toNat = i.opcode.toNat * 2 ^ 132 + i.slotA.tag.toNat * 2 ^ 130 + i.slotB.tag.toNat * 2 ^ 128 +
      i.slotA.field.toNat * 2 ^ 64 + i.slotB.field.toNat :=
  (BitVec.toNat_ofNat _ _).trans <| Nat.mod_eq_of_lt
    (packed_fields i.opcode.isLt i.slotA.tag.isLt i.slotB.tag.isLt i.slotA.field.isLt i.slotB.field.isLt rfl).1

/-- A field of a word, as a number. -/
theorem field_toNat (w : MemWord) (start len : Nat) :
    (w.extractLsb' start len).toNat = w.toNat / 2 ^ start % 2 ^ len := by
  rw [BitVec.extractLsb'_toNat, Nat.shiftRight_eq_div_pow]

@[simp] theorem opcField_encode (i : Instr) : opcField (encode i) = i.opcode :=
  BitVec.eq_of_toNat_eq <| by
    rw [opcField, field_toNat]
    exact (packed_fields i.opcode.isLt i.slotA.tag.isLt i.slotB.tag.isLt i.slotA.field.isLt i.slotB.field.isLt
      (encode_packed i)).2.1

@[simp] theorem taField_encode (i : Instr) : taField (encode i) = i.slotA.tag :=
  BitVec.eq_of_toNat_eq <| by
    rw [taField, field_toNat]
    exact (packed_fields i.opcode.isLt i.slotA.tag.isLt i.slotB.tag.isLt i.slotA.field.isLt i.slotB.field.isLt
      (encode_packed i)).2.2.1

@[simp] theorem tbField_encode (i : Instr) : tbField (encode i) = i.slotB.tag :=
  BitVec.eq_of_toNat_eq <| by
    rw [tbField, field_toNat]
    exact (packed_fields i.opcode.isLt i.slotA.tag.isLt i.slotB.tag.isLt i.slotA.field.isLt i.slotB.field.isLt
      (encode_packed i)).2.2.2.1

@[simp] theorem vaField_encode (i : Instr) : vaField (encode i) = i.slotA.field :=
  BitVec.eq_of_toNat_eq <| by
    rw [vaField, field_toNat]
    exact (packed_fields i.opcode.isLt i.slotA.tag.isLt i.slotB.tag.isLt i.slotA.field.isLt i.slotB.field.isLt
      (encode_packed i)).2.2.2.2.1

@[simp] theorem vbField_encode (i : Instr) : vbField (encode i) = i.slotB.field :=
  BitVec.eq_of_toNat_eq <| by
    rw [vbField, field_toNat]
    exact (packed_fields i.opcode.isLt i.slotA.tag.isLt i.slotB.tag.isLt i.slotA.field.isLt i.slotB.field.isLt
      (encode_packed i)).2.2.2.2.2

/-- Tag and field give the operand back. -/
@[simp] theorem operandOf_tag_field (o : Operand) : operandOf o.tag o.field = o := by
  cases o <;> rfl

/-! ## Bytes of a word (R61) -/

theorem bytesValue_lt (f : Nat → Byte) (k : Nat) : bytesValue f k < 2 ^ (8 * k) := by
  induction k with
  | zero => simp [bytesValue]
  | succ k ih =>
    have := (f k).isLt
    rw [bytesValue, Nat.mul_succ, pow_add]
    omega

theorem bytesValue_byte (f : Nat → Byte) {k j : Nat} (h : j < k) :
    bytesValue f k / 2 ^ (8 * (k - 1 - j)) % 2 ^ 8 = (f j).toNat := by
  induction k with
  | zero => omega
  | succ k ih =>
    have hb := (f k).isLt
    rcases Nat.lt_succ_iff_lt_or_eq.mp h with h | rfl
    · have hk : 8 * (k + 1 - 1 - j) = 8 + 8 * (k - 1 - j) := by omega
      rw [← ih h, bytesValue, hk, pow_add, ← Nat.div_div_eq_div_mul]
      congr 2
      omega
    · simp [bytesValue]
      omega

theorem bytesValue_byteOfWord (w : MemWord) {k : Nat} (h : k ≤ 17) :
    bytesValue (byteOfWord w) k = w.toNat / 2 ^ (8 * (17 - k)) := by
  induction k with
  | zero => exact (Nat.div_eq_of_lt w.isLt).symm
  | succ k ih =>
    have hk : 8 * (17 - k) = 8 * (16 - k) + 8 := by omega
    have hk' : 17 - (k + 1) = 16 - k := by omega
    rw [bytesValue, ih (by omega), hk, hk', byteOfWord, field_toNat, pow_add, ← Nat.div_div_eq_div_mul]
    omega

/-- A word is made of its bytes. -/
@[simp] theorem wordOfBytes_byteOfWord (w : MemWord) : wordOfBytes (byteOfWord w) = w := by
  simp [wordOfBytes, bytesValue_byteOfWord]

/-- The bytes of a word made of bytes. -/
theorem byteOfWord_wordOfBytes (f : Nat → Byte) {j : Nat} (h : j < 17) : byteOfWord (wordOfBytes f) j = f j :=
  BitVec.eq_of_toNat_eq <| by
    rw [byteOfWord, field_toNat, wordOfBytes, BitVec.toNat_ofNat, Nat.mod_eq_of_lt (bytesValue_lt f 17)]
    exact bytesValue_byte f h

theorem bytesValue_congr {f g : Nat → Byte} {k : Nat} (h : ∀ j < k, f j = g j) : bytesValue f k = bytesValue g k := by
  induction k with
  | zero => rfl
  | succ k ih => rw [bytesValue, bytesValue, ih fun j hj => h j (by omega), h k (by omega)]

/-- A word depends on its 17 bytes only. -/
theorem wordOfBytes_congr {f g : Nat → Byte} (h : ∀ j < 17, f j = g j) : wordOfBytes f = wordOfBytes g := by
  rw [wordOfBytes, wordOfBytes, bytesValue_congr h]

/-- A table word of 136 bits is the word itself. -/
theorem tableWord_136 (w : MemWord) : tableWord 136 w.toNat = w := by
  rw [tableWord, Nat.mod_eq_of_lt w.isLt, BitVec.ofNat_toNat, BitVec.setWidth_eq]

end Sys2Proof
end

