-- ==== Sys2Proof/Laws/Memory.lean ====
section
/-! SUPPORT. The memory: a read after a write, the canonical form, and where the cells lie. -/

namespace Sys2Proof.Machine

/-! ## One byte -/

@[simp] theorem Memory.readByte_nil (n : Nat) : Memory.readByte [] n = Memory.unlisted := rfl

/-- A memory in canonical form is canonical without its first cell. -/
theorem Memory.wf_tail {c : Host.Cell} {m : Memory} (h : Memory.wf (c :: m) = true) : Memory.wf m = true := by
  cases m with
  | nil => rfl
  | cons d m => simp only [Memory.wf, Bool.and_eq_true] at h; exact h.2

/-- Every cell after the first has a larger number. -/
theorem Memory.head_lt {k : Nat} {b : Byte} {m : Memory} (h : Memory.wf ((k, b) :: m) = true) :
    ∀ c ∈ m, k < c.1 := by
  induction m generalizing k b with
  | nil => simp
  | cons d m ih =>
    obtain ⟨l, e⟩ := d
    simp only [Memory.wf, Bool.and_eq_true, decide_eq_true_eq] at h
    intro c hc
    rcases List.mem_cons.mp hc with rfl | hc
    · exact h.1.2
    · exact h.1.2.trans (ih h.2 c hc)

/-- A number below every cell's is not listed. -/
theorem Memory.readByte_of_lt {m : Memory} {n : Nat} (h : ∀ c ∈ m, n < c.1) : m.readByte n = Memory.unlisted := by
  induction m with
  | nil => rfl
  | cons c m ih =>
    obtain ⟨k, b⟩ := c
    have hk : n < k := h (k, b) (by simp)
    rw [Memory.readByte, if_neg (by omega)]
    exact ih fun c hc => h c (by simp [hc])

/-- A canonical memory prefixed by a smaller, listable cell is canonical. -/
theorem Memory.wf_cons {k : Nat} {b : Byte} {m : Memory} (hb : b ≠ Memory.unlisted) (hk : ∀ c ∈ m, k < c.1)
    (h : Memory.wf m = true) : Memory.wf ((k, b) :: m) = true := by
  cases m with
  | nil => simpa [Memory.wf] using hb
  | cons d m =>
    have := hk d (by simp)
    simp only [Memory.wf, Bool.and_eq_true, decide_eq_true_eq]
    exact ⟨⟨by simpa using hb, this⟩, h⟩

theorem Memory.head_ne_unlisted {k : Nat} {b : Byte} {m : Memory} (h : Memory.wf ((k, b) :: m) = true) :
    b ≠ Memory.unlisted := by
  cases m with
  | nil => simpa [Memory.wf] using h
  | cons d m => simp only [Memory.wf, Bool.and_eq_true, decide_eq_true_eq] at h; simpa using h.1.1

/-- The cells after a write are the one written and old ones. -/
theorem Memory.mem_writeByte {m : Memory} {n : Nat} {b : Byte} {c : Host.Cell} (h : c ∈ m.writeByte n b) :
    c = (n, b) ∨ c ∈ m := by
  induction m with
  | nil =>
    rw [Memory.writeByte] at h
    split at h <;> simp_all
  | cons d m ih =>
    obtain ⟨k, e⟩ := d
    rw [Memory.writeByte] at h
    split at h
    · split at h
      · exact .inr h
      · simpa using h
    · split at h
      · split at h
        · exact .inr (by simp [h])
        · rcases List.mem_cons.mp h with rfl | h
          · exact .inl rfl
          · exact .inr (by simp [h])
      · rcases List.mem_cons.mp h with rfl | h
        · exact .inr (by simp)
        · rcases ih h with rfl | h
          · exact .inl rfl
          · exact .inr (by simp [h])

/-- A write keeps the canonical form. -/
theorem Memory.wf_writeByte {m : Memory} (h : m.wf = true) (n : Nat) (b : Byte) : (m.writeByte n b).wf = true := by
  induction m with
  | nil =>
    rw [Memory.writeByte]
    split
    · rfl
    · simpa [Memory.wf]
  | cons d m ih =>
    obtain ⟨k, e⟩ := d
    have hlt := Memory.head_lt h
    rw [Memory.writeByte]
    split
    · split
      · exact h
      · refine Memory.wf_cons ‹_› (fun c hc => ?_) h
        rcases List.mem_cons.mp hc with rfl | hc
        · assumption
        · exact Nat.lt_trans ‹_› (hlt c hc)
    · split
      · subst n
        split
        · exact Memory.wf_tail h
        · exact Memory.wf_cons ‹_› hlt (Memory.wf_tail h)
      · refine Memory.wf_cons (Memory.head_ne_unlisted h) (fun c hc => ?_) (ih (Memory.wf_tail h))
        rcases Memory.mem_writeByte hc with rfl | hc
        · simp only; omega
        · exact hlt c hc

/-- A read of another byte is unchanged by a write. -/
theorem Memory.readByte_writeByte_other {m : Memory} {n q : Nat} {b : Byte} (h : q ≠ n) :
    (m.writeByte n b).readByte q = m.readByte q := by
  induction m with
  | nil =>
    rw [Memory.writeByte]
    split
    · rfl
    · simp [Memory.readByte, h]
  | cons d m ih =>
    obtain ⟨k, e⟩ := d
    rw [Memory.writeByte]
    split
    · split
      · rfl
      · rw [Memory.readByte, if_neg h]
    · split
      · subst n
        split
        · rw [Memory.readByte, if_neg h]
        · rw [Memory.readByte, if_neg h, Memory.readByte, if_neg h]
      · rw [Memory.readByte, Memory.readByte, ih]

/-- A read of the byte just written. -/
theorem Memory.readByte_writeByte_same {m : Memory} (hm : m.wf = true) (n : Nat) (b : Byte) :
    (m.writeByte n b).readByte n = b := by
  induction m with
  | nil =>
    rw [Memory.writeByte]
    split
    · simp_all [Memory.readByte]
    · simp [Memory.readByte]
  | cons d m ih =>
    obtain ⟨k, e⟩ := d
    have hlt := Memory.head_lt hm
    rw [Memory.writeByte]
    split
    · split
      · rw [Memory.readByte_of_lt, ‹b = _›]
        intro c hc
        rcases List.mem_cons.mp hc with rfl | hc
        · assumption
        · exact Nat.lt_trans ‹_› (hlt c hc)
      · simp [Memory.readByte]
    · split
      · subst n
        split
        · rw [Memory.readByte_of_lt hlt, ‹b = _›]
        · simp [Memory.readByte]
      · rw [Memory.readByte, if_neg ‹_›]
        exact ih (Memory.wf_tail hm)

/-! ## One word -/

/-- What the last `k` bytes of a word write: the canonical form stays, the cells lie at the bytes written or where cells
were, and every byte reads as written or as before. -/
theorem Memory.writeTail_spec {m : Memory} (hm : m.wf = true) (a : Nat) (w : MemWord) {k : Nat} (hk : k ≤ 17) :
    (m.writeTail a w k).wf = true ∧
      (∀ c ∈ m.writeTail a w k, c ∈ m ∨ wordBytes * a ≤ c.1 ∧ c.1 < wordBytes * a + 17) ∧
      (∀ n, n < wordBytes * a + (17 - k) ∨ wordBytes * a + 17 ≤ n →
        (m.writeTail a w k).readByte n = m.readByte n) ∧
      (∀ j, 17 - k ≤ j → j < 17 → (m.writeTail a w k).readByte (wordBytes * a + j) = byteOfWord w j) := by
  induction k generalizing m with
  | zero =>
    refine ⟨hm, fun c hc => .inl hc, fun n _ => rfl, fun j h1 h2 => ?_⟩
    omega
  | succ k ih =>
    have hw := Memory.wf_writeByte hm (wordBytes * a + (16 - k)) (byteOfWord w (16 - k))
    obtain ⟨i1, i2, i3, i4⟩ := ih hw (by omega)
    rw [Memory.writeTail]
    refine ⟨i1, fun c hc => ?_, fun n hn => ?_, fun j h1 h2 => ?_⟩
    · rcases i2 c hc with h | h
      · rcases Memory.mem_writeByte h with rfl | h
        · right
          show _ ≤ wordBytes * a + (16 - k) ∧ wordBytes * a + (16 - k) < _
          omega
        · exact .inl h
      · exact .inr h
    · rw [i3 n (by omega), Memory.readByte_writeByte_other (by omega)]
    · rcases Nat.lt_or_ge j (17 - k) with hj | hj
      · have : j = 16 - k := by omega
        subst this
        rw [i3 _ (by omega), Memory.readByte_writeByte_same hm]
      · exact i4 j hj h2

/-- A word write keeps the canonical form. -/
theorem Memory.wf_writeWord {m : Memory} (hm : m.wf = true) (a : Nat) (w : MemWord) : (m.writeWord a w).wf = true :=
  (Memory.writeTail_spec hm a w (Nat.le_refl 17)).1

/-- A word write changes no byte outside the word. -/
theorem Memory.readByte_writeWord_outside {m : Memory} (hm : m.wf = true) (a : Nat) (w : MemWord) {n : Nat}
    (h : n < wordBytes * a ∨ wordBytes * a + 17 ≤ n) : (m.writeWord a w).readByte n = m.readByte n :=
  (Memory.writeTail_spec hm a w (Nat.le_refl 17)).2.2.1 n (by omega)

/-- A read of the word just written (R52, R63). -/
theorem Memory.readWord_writeWord_same {m : Memory} (hm : m.wf = true) (a : Nat) (w : MemWord) :
    (m.writeWord a w).readWord a = w := by
  rw [Memory.readWord, wordOfBytes_congr (g := byteOfWord w), wordOfBytes_byteOfWord]
  exact fun j hj => (Memory.writeTail_spec hm a w (Nat.le_refl 17)).2.2.2 j (by omega) hj

/-- A write changes no other word (R52). -/
theorem Memory.readWord_writeWord_other {m : Memory} (hm : m.wf = true) {a q : Nat} (w : MemWord) (h : q ≠ a) :
    (m.writeWord a w).readWord q = m.readWord q := by
  refine wordOfBytes_congr fun j hj => Memory.readByte_writeWord_outside hm a w ?_
  simp only [wordBytes]
  omega

/-- Where the cells lie after a word write. -/
theorem Memory.mem_writeWord {m : Memory} (hm : m.wf = true) {a : Nat} {w : MemWord} {c : Host.Cell}
    (h : c ∈ m.writeWord a w) : c ∈ m ∨ wordBytes * a ≤ c.1 ∧ c.1 < wordBytes * a + 17 :=
  (Memory.writeTail_spec hm a w (Nat.le_refl 17)).2.1 c h

/-! ## An image (R257) -/

/-- Writing an image keeps the canonical form. -/
theorem Memory.wf_writeImage {m : Memory} (hm : m.wf = true) (a : Nat) (ws : List MemWord) :
    (m.writeImage a ws).wf = true := by
  induction ws generalizing m a with
  | nil => exact hm
  | cons w ws ih => exact ih (Memory.wf_writeWord hm a w) (a + 1)

/-- Where the cells lie after an image is written. -/
theorem Memory.mem_writeImage {m : Memory} (hm : m.wf = true) {a : Nat} {ws : List MemWord} {c : Host.Cell}
    (h : c ∈ m.writeImage a ws) : c ∈ m ∨ wordBytes * a ≤ c.1 ∧ c.1 < wordBytes * (a + ws.length) := by
  induction ws generalizing m a with
  | nil => exact .inl h
  | cons w ws ih =>
    simp only [wordBytes, List.length_cons] at *
    rcases ih (Memory.wf_writeWord hm a w) h with h | h
    · rcases Memory.mem_writeWord hm h with h | h
      · exact .inl h
      · simp only [wordBytes] at h; omega
    · omega

/-- Words below the image are unchanged. -/
theorem Memory.readWord_writeImage_below {m : Memory} (hm : m.wf = true) {a q : Nat} (ws : List MemWord) (h : q < a) :
    (m.writeImage a ws).readWord q = m.readWord q := by
  induction ws generalizing m a with
  | nil => rfl
  | cons w ws ih =>
    rw [Memory.writeImage, ih (Memory.wf_writeWord hm a w) (by omega), Memory.readWord_writeWord_other hm w (by omega)]

/-- Word `k` of the image stands at index `a + k`. -/
theorem Memory.readWord_writeImage {m : Memory} (hm : m.wf = true) (a : Nat) {ws : List MemWord} {k : Nat}
    (h : k < ws.length) : (m.writeImage a ws).readWord (a + k) = ws[k] := by
  induction ws generalizing m a k with
  | nil => simp at h
  | cons w ws ih =>
    cases k with
    | zero =>
      rw [Memory.writeImage, Memory.readWord_writeImage_below (Memory.wf_writeWord hm a w) ws (by omega)]
      exact Memory.readWord_writeWord_same hm a w
    | succ k =>
      rw [Memory.writeImage, show a + (k + 1) = a + 1 + k by omega,
        ih (Memory.wf_writeWord hm a w) (a + 1) (by simpa using h)]
      rfl

/-! ## What reset keeps of the memory (R250) -/

/-- Keeping the cells below a number keeps the canonical form. -/
theorem Memory.wf_filter_below {m : Memory} (hm : m.wf = true) (n : Nat) :
    Memory.wf (m.filter fun c => c.1 < n) = true := by
  induction m with
  | nil => rfl
  | cons d m ih =>
    obtain ⟨k, b⟩ := d
    rw [List.filter_cons]
    split
    · exact Memory.wf_cons (Memory.head_ne_unlisted hm)
        (fun c hc => Memory.head_lt hm c (List.mem_of_mem_filter hc)) (ih (Memory.wf_tail hm))
    · exact ih (Memory.wf_tail hm)

/-- A byte below the number reads as before, every other byte as an unlisted one. -/
theorem Memory.readByte_filter_below (m : Memory) (n q : Nat) :
    Memory.readByte (m.filter fun c => c.1 < n) q = if q < n then m.readByte q else Memory.unlisted := by
  induction m with
  | nil => simp
  | cons d m ih =>
    obtain ⟨k, b⟩ := d
    rw [List.filter_cons]
    split
    · simp only [Memory.readByte, ih]
      split <;> simp_all
    · simp only [Memory.readByte, ih]
      by_cases hq : q = k
      · subst hq
        have : ¬q < n := by simp_all
        rw [if_neg this, if_neg this]
      · rw [if_neg hq]

/-- A word depends on the bytes read only. -/
theorem Memory.readWord_congr {m m' : Memory} {a : Nat}
    (h : ∀ j < 17, m.readByte (wordBytes * a + j) = m'.readByte (wordBytes * a + j)) : m.readWord a = m'.readWord a :=
  wordOfBytes_congr h

/-- A word whose bytes are all unlisted is 0. -/
theorem Memory.readWord_unlisted {m : Memory} {a : Nat}
    (h : ∀ j < 17, m.readByte (wordBytes * a + j) = Memory.unlisted) : m.readWord a = 0 := by
  rw [Memory.readWord, wordOfBytes_congr (g := byteOfWord 0), wordOfBytes_byteOfWord]
  intro j hj
  rw [h j hj]
  simp [byteOfWord, Memory.unlisted]

/-! ## Cells and words -/

/-- The datum of the cell a datum was stored in (R51, R167 e). -/
@[simp] theorem datumOf_cellOf (v : Word) : datumOf (cellOf v) = v := by
  simp [datumOf, cellOf]

/-- The upper 72 bits of a stored datum are 0 (R51). -/
theorem cellOf_upper (v : Word) : (cellOf v).extractLsb' 64 72 = 0 := by
  apply BitVec.eq_of_toNat_eq
  rw [field_toNat, cellOf, BitVec.toNat_setWidth]
  have := v.isLt
  show v.toNat % 2 ^ 136 / 2 ^ 64 % 2 ^ 72 = 0
  omega

end Sys2Proof.Machine
end

