-- ==== Sys2Proof/Laws/State.lean ====
section
/-! SUPPORT. One lemma per field per update of the state, so that no proof unfolds a record update. -/

namespace Sys2Proof.Machine

/-! ## `State.raise` -/

@[simp] theorem State.raise_regs (s : State) (c : Cause) : (s.raise c).regs = s.regs := rfl
@[simp] theorem State.raise_zf (s : State) (c : Cause) : (s.raise c).zf = s.zf := rfl
@[simp] theorem State.raise_cf (s : State) (c : Cause) : (s.raise c).cf = s.cf := rfl
@[simp] theorem State.raise_ip (s : State) (c : Cause) : (s.raise c).ip = s.ip := rfl
@[simp] theorem State.raise_sp (s : State) (c : Cause) : (s.raise c).sp = s.sp := rfl
@[simp] theorem State.raise_status (s : State) (c : Cause) : (s.raise c).status = .faulted c := rfl
@[simp] theorem State.raise_lowSp (s : State) (c : Cause) : (s.raise c).lowSp = s.lowSp := rfl
@[simp] theorem State.raise_capacity (s : State) (c : Cause) : (s.raise c).capacity = s.capacity := rfl
@[simp] theorem State.raise_mem (s : State) (c : Cause) : (s.raise c).mem = s.mem := rfl
@[simp] theorem State.raise_out (s : State) (c : Cause) : (s.raise c).out = s.out := rfl

/-! ## `State.writeReg` -/

@[simp] theorem State.writeReg_regs (s : State) (r : Fin 16) (v : Word) : (s.writeReg r v).regs = s.regs.set r v := rfl
@[simp] theorem State.writeReg_zf (s : State) (r : Fin 16) (v : Word) : (s.writeReg r v).zf = s.zf := rfl
@[simp] theorem State.writeReg_cf (s : State) (r : Fin 16) (v : Word) : (s.writeReg r v).cf = s.cf := rfl
@[simp] theorem State.writeReg_ip (s : State) (r : Fin 16) (v : Word) : (s.writeReg r v).ip = s.ip := rfl
@[simp] theorem State.writeReg_sp (s : State) (r : Fin 16) (v : Word) : (s.writeReg r v).sp = s.sp := rfl
@[simp] theorem State.writeReg_status (s : State) (r : Fin 16) (v : Word) : (s.writeReg r v).status = s.status := rfl
@[simp] theorem State.writeReg_lowSp (s : State) (r : Fin 16) (v : Word) : (s.writeReg r v).lowSp = s.lowSp := rfl
@[simp] theorem State.writeReg_capacity (s : State) (r : Fin 16) (v : Word) : (s.writeReg r v).capacity = s.capacity := rfl
@[simp] theorem State.writeReg_mem (s : State) (r : Fin 16) (v : Word) : (s.writeReg r v).mem = s.mem := rfl
@[simp] theorem State.writeReg_out (s : State) (r : Fin 16) (v : Word) : (s.writeReg r v).out = s.out := rfl

/-! ## `State.advance` -/

@[simp] theorem State.advance_regs (s : State) : (s.advance).regs = s.regs := rfl
@[simp] theorem State.advance_zf (s : State) : (s.advance).zf = s.zf := rfl
@[simp] theorem State.advance_cf (s : State) : (s.advance).cf = s.cf := rfl
@[simp] theorem State.advance_ip (s : State) : (s.advance).ip = s.ip + 1 := rfl
@[simp] theorem State.advance_sp (s : State) : (s.advance).sp = s.sp := rfl
@[simp] theorem State.advance_status (s : State) : (s.advance).status = s.status := rfl
@[simp] theorem State.advance_lowSp (s : State) : (s.advance).lowSp = s.lowSp := rfl
@[simp] theorem State.advance_capacity (s : State) : (s.advance).capacity = s.capacity := rfl
@[simp] theorem State.advance_mem (s : State) : (s.advance).mem = s.mem := rfl
@[simp] theorem State.advance_out (s : State) : (s.advance).out = s.out := rfl

/-! ## `State.jumpTo` -/

@[simp] theorem State.jumpTo_regs (s : State) (t : Word) : (s.jumpTo t).regs = s.regs := rfl
@[simp] theorem State.jumpTo_zf (s : State) (t : Word) : (s.jumpTo t).zf = s.zf := rfl
@[simp] theorem State.jumpTo_cf (s : State) (t : Word) : (s.jumpTo t).cf = s.cf := rfl
@[simp] theorem State.jumpTo_ip (s : State) (t : Word) : (s.jumpTo t).ip = t := rfl
@[simp] theorem State.jumpTo_sp (s : State) (t : Word) : (s.jumpTo t).sp = s.sp := rfl
@[simp] theorem State.jumpTo_status (s : State) (t : Word) : (s.jumpTo t).status = s.status := rfl
@[simp] theorem State.jumpTo_lowSp (s : State) (t : Word) : (s.jumpTo t).lowSp = s.lowSp := rfl
@[simp] theorem State.jumpTo_capacity (s : State) (t : Word) : (s.jumpTo t).capacity = s.capacity := rfl
@[simp] theorem State.jumpTo_mem (s : State) (t : Word) : (s.jumpTo t).mem = s.mem := rfl
@[simp] theorem State.jumpTo_out (s : State) (t : Word) : (s.jumpTo t).out = s.out := rfl

/-! ## `State.setSp` -/

@[simp] theorem State.setSp_regs (s : State) (p : Word) : (s.setSp p).regs = s.regs := rfl
@[simp] theorem State.setSp_zf (s : State) (p : Word) : (s.setSp p).zf = s.zf := rfl
@[simp] theorem State.setSp_cf (s : State) (p : Word) : (s.setSp p).cf = s.cf := rfl
@[simp] theorem State.setSp_ip (s : State) (p : Word) : (s.setSp p).ip = s.ip := rfl
@[simp] theorem State.setSp_sp (s : State) (p : Word) : (s.setSp p).sp = p := rfl
@[simp] theorem State.setSp_status (s : State) (p : Word) : (s.setSp p).status = s.status := rfl
@[simp] theorem State.setSp_lowSp (s : State) (p : Word) : (s.setSp p).lowSp = s.lowSp := rfl
@[simp] theorem State.setSp_capacity (s : State) (p : Word) : (s.setSp p).capacity = s.capacity := rfl
@[simp] theorem State.setSp_mem (s : State) (p : Word) : (s.setSp p).mem = s.mem := rfl
@[simp] theorem State.setSp_out (s : State) (p : Word) : (s.setSp p).out = s.out := rfl

/-! ## `State.halt` -/

@[simp] theorem State.halt_regs (s : State) : (s.halt).regs = s.regs := rfl
@[simp] theorem State.halt_zf (s : State) : (s.halt).zf = s.zf := rfl
@[simp] theorem State.halt_cf (s : State) : (s.halt).cf = s.cf := rfl
@[simp] theorem State.halt_ip (s : State) : (s.halt).ip = s.ip := rfl
@[simp] theorem State.halt_sp (s : State) : (s.halt).sp = s.sp := rfl
@[simp] theorem State.halt_status (s : State) : (s.halt).status = .halted := rfl
@[simp] theorem State.halt_lowSp (s : State) : (s.halt).lowSp = s.lowSp := rfl
@[simp] theorem State.halt_capacity (s : State) : (s.halt).capacity = s.capacity := rfl
@[simp] theorem State.halt_mem (s : State) : (s.halt).mem = s.mem := rfl
@[simp] theorem State.halt_out (s : State) : (s.halt).out = s.out := rfl

/-! ## `State.emit` -/

@[simp] theorem State.emit_regs (s : State) (v : Int) : (s.emit v).regs = s.regs := rfl
@[simp] theorem State.emit_zf (s : State) (v : Int) : (s.emit v).zf = s.zf := rfl
@[simp] theorem State.emit_cf (s : State) (v : Int) : (s.emit v).cf = s.cf := rfl
@[simp] theorem State.emit_ip (s : State) (v : Int) : (s.emit v).ip = s.ip := rfl
@[simp] theorem State.emit_sp (s : State) (v : Int) : (s.emit v).sp = s.sp := rfl
@[simp] theorem State.emit_status (s : State) (v : Int) : (s.emit v).status = s.status := rfl
@[simp] theorem State.emit_lowSp (s : State) (v : Int) : (s.emit v).lowSp = s.lowSp := rfl
@[simp] theorem State.emit_capacity (s : State) (v : Int) : (s.emit v).capacity = s.capacity := rfl
@[simp] theorem State.emit_mem (s : State) (v : Int) : (s.emit v).mem = s.mem := rfl
@[simp] theorem State.emit_out (s : State) (v : Int) : (s.emit v).out = s.out ++ [v] := rfl

/-! ## `State.compare` -/

@[simp] theorem State.compare_regs (s : State) (va vb : Word) : (s.compare va vb).regs = s.regs := rfl
@[simp] theorem State.compare_zf (s : State) (va vb : Word) : (s.compare va vb).zf = decide (difference va vb = 0) := rfl
@[simp] theorem State.compare_cf (s : State) (va vb : Word) : (s.compare va vb).cf = decide (difference va vb < 0) := rfl
@[simp] theorem State.compare_ip (s : State) (va vb : Word) : (s.compare va vb).ip = s.ip := rfl
@[simp] theorem State.compare_sp (s : State) (va vb : Word) : (s.compare va vb).sp = s.sp := rfl
@[simp] theorem State.compare_status (s : State) (va vb : Word) : (s.compare va vb).status = s.status := rfl
@[simp] theorem State.compare_lowSp (s : State) (va vb : Word) : (s.compare va vb).lowSp = s.lowSp := rfl
@[simp] theorem State.compare_capacity (s : State) (va vb : Word) : (s.compare va vb).capacity = s.capacity := rfl
@[simp] theorem State.compare_mem (s : State) (va vb : Word) : (s.compare va vb).mem = s.mem := rfl
@[simp] theorem State.compare_out (s : State) (va vb : Word) : (s.compare va vb).out = s.out := rfl

/-! ## `State.branch` -/

@[simp] theorem State.branch_regs (s : State) (taken : Bool) (t : Word) : (s.branch taken t).regs = s.regs := by
  cases taken <;> rfl
@[simp] theorem State.branch_zf (s : State) (taken : Bool) (t : Word) : (s.branch taken t).zf = s.zf := by
  cases taken <;> rfl
@[simp] theorem State.branch_cf (s : State) (taken : Bool) (t : Word) : (s.branch taken t).cf = s.cf := by
  cases taken <;> rfl
@[simp] theorem State.branch_ip (s : State) (taken : Bool) (t : Word) : (s.branch taken t).ip = if taken then t else s.ip + 1 := by
  cases taken <;> rfl
@[simp] theorem State.branch_sp (s : State) (taken : Bool) (t : Word) : (s.branch taken t).sp = s.sp := by
  cases taken <;> rfl
@[simp] theorem State.branch_status (s : State) (taken : Bool) (t : Word) : (s.branch taken t).status = s.status := by
  cases taken <;> rfl
@[simp] theorem State.branch_lowSp (s : State) (taken : Bool) (t : Word) : (s.branch taken t).lowSp = s.lowSp := by
  cases taken <;> rfl
@[simp] theorem State.branch_capacity (s : State) (taken : Bool) (t : Word) : (s.branch taken t).capacity = s.capacity := by
  cases taken <;> rfl
@[simp] theorem State.branch_mem (s : State) (taken : Bool) (t : Word) : (s.branch taken t).mem = s.mem := by
  cases taken <;> rfl
@[simp] theorem State.branch_out (s : State) (taken : Bool) (t : Word) : (s.branch taken t).out = s.out := by
  cases taken <;> rfl

/-! ## `State.setFlag` -/

@[simp] theorem State.setFlag_ZF_regs (s : State) (v : Bool) : (s.setFlag .ZF v).regs = s.regs := rfl
@[simp] theorem State.setFlag_ZF_zf (s : State) (v : Bool) : (s.setFlag .ZF v).zf = v := rfl
@[simp] theorem State.setFlag_ZF_cf (s : State) (v : Bool) : (s.setFlag .ZF v).cf = s.cf := rfl
@[simp] theorem State.setFlag_ZF_ip (s : State) (v : Bool) : (s.setFlag .ZF v).ip = s.ip := rfl
@[simp] theorem State.setFlag_ZF_sp (s : State) (v : Bool) : (s.setFlag .ZF v).sp = s.sp := rfl
@[simp] theorem State.setFlag_ZF_status (s : State) (v : Bool) : (s.setFlag .ZF v).status = s.status := rfl
@[simp] theorem State.setFlag_ZF_lowSp (s : State) (v : Bool) : (s.setFlag .ZF v).lowSp = s.lowSp := rfl
@[simp] theorem State.setFlag_ZF_capacity (s : State) (v : Bool) : (s.setFlag .ZF v).capacity = s.capacity := rfl
@[simp] theorem State.setFlag_ZF_mem (s : State) (v : Bool) : (s.setFlag .ZF v).mem = s.mem := rfl
@[simp] theorem State.setFlag_ZF_out (s : State) (v : Bool) : (s.setFlag .ZF v).out = s.out := rfl
@[simp] theorem State.setFlag_CF_regs (s : State) (v : Bool) : (s.setFlag .CF v).regs = s.regs := rfl
@[simp] theorem State.setFlag_CF_zf (s : State) (v : Bool) : (s.setFlag .CF v).zf = s.zf := rfl
@[simp] theorem State.setFlag_CF_cf (s : State) (v : Bool) : (s.setFlag .CF v).cf = v := rfl
@[simp] theorem State.setFlag_CF_ip (s : State) (v : Bool) : (s.setFlag .CF v).ip = s.ip := rfl
@[simp] theorem State.setFlag_CF_sp (s : State) (v : Bool) : (s.setFlag .CF v).sp = s.sp := rfl
@[simp] theorem State.setFlag_CF_status (s : State) (v : Bool) : (s.setFlag .CF v).status = s.status := rfl
@[simp] theorem State.setFlag_CF_lowSp (s : State) (v : Bool) : (s.setFlag .CF v).lowSp = s.lowSp := rfl
@[simp] theorem State.setFlag_CF_capacity (s : State) (v : Bool) : (s.setFlag .CF v).capacity = s.capacity := rfl
@[simp] theorem State.setFlag_CF_mem (s : State) (v : Bool) : (s.setFlag .CF v).mem = s.mem := rfl
@[simp] theorem State.setFlag_CF_out (s : State) (v : Bool) : (s.setFlag .CF v).out = s.out := rfl

/-! ## Register reads -/

theorem State.reg_eq_getElem (s : State) (r : Fin 16) : s.reg r = s.regs[r.val] := rfl

theorem State.reg_ecx (s : State) : s.reg ecx = s.regs[2] := rfl

/-- INT 4's word index (R59). -/
theorem State.printIndex_eq (s : State) : s.printIndex = s.lowSp.toNat + s.regs[2].toInt := by
  rw [State.printIndex, State.reg_ecx]

@[simp] theorem State.reg_writeReg_same (s : State) (r : Fin 16) (v : Word) : (s.writeReg r v).reg r = v := by
  simp [State.reg]

@[simp] theorem State.reg_writeReg_other (s : State) {r q : Fin 16} (v : Word) (h : r ≠ q) :
    (s.writeReg r v).reg q = s.reg q := by
  have h' : r.val ≠ q.val := fun e => h (Fin.ext e)
  simp [State.reg, h']

end Sys2Proof.Machine
end

