-- ==== Sys2Proof/Laws/Ops.lean ====
section
/-! SUPPORT. For each shared operation, once, everything it can do. -/

namespace Sys2Proof.Machine

/-! ## Memory accesses and the fetch -/

theorem State.withRead_of_lt {s : State} {a : Nat} (h : a < s.capacity.toNat) (k : MemWord → Result) :
    s.withRead a k = k (s.mem.readWord a) := if_pos h

theorem State.withWrite_of_lt {s : State} {a : Nat} (h : a < s.capacity.toNat) (w : MemWord) (k : State → Result) :
    s.withWrite a w k = k { s with mem := s.mem.writeWord a w } := if_pos h

/-- A read that answers a next state read a word that exists. -/
theorem State.withRead_next {s t : State} {a : Nat} {k : MemWord → Result} (h : s.withRead a k = .next t) :
    a < s.capacity.toNat ∧ k (s.mem.readWord a) = .next t := by
  unfold State.withRead at h
  split at h
  · exact ⟨‹_›, h⟩
  · cases h

/-- A write that answers a next state wrote a word that exists. -/
theorem State.withWrite_next {s t : State} {a : Nat} {w : MemWord} {k : State → Result}
    (h : s.withWrite a w k = .next t) :
    a < s.capacity.toNat ∧ k { s with mem := s.mem.writeWord a w } = .next t := by
  unfold State.withWrite at h
  split at h
  · exact ⟨‹_›, h⟩
  · cases h

/-- The three ways of a fetch (R131). -/
theorem State.withFetch_next {s t : State} {k : MemWord → Result} (h : s.withFetch k = .next t) :
    (s.ip = s.lowSp ∧ t = s.halt) ∨
    (s.lowSp < s.ip ∧ t = s.raise .invalidFetch) ∨
    (s.ip < s.lowSp ∧ s.ip.toNat < s.capacity.toNat ∧ k (s.mem.readWord s.ip.toNat) = .next t) := by
  unfold State.withFetch at h
  split at h
  · exact .inl ⟨‹_›, by injection h with h; exact h.symm⟩
  · split at h
    · exact .inr (.inl ⟨‹_›, by injection h with h; exact h.symm⟩)
    · have := State.withRead_next h
      exact .inr (.inr ⟨by bv_omega, this⟩)

/-- A fetch in the code region of a memory that holds it. -/
theorem State.withFetch_of_lt {s : State} (h : s.ip < s.lowSp) (hc : s.ip.toNat < s.capacity.toNat)
    (k : MemWord → Result) : s.withFetch k = k (s.mem.readWord s.ip.toNat) := by
  rw [State.withFetch, if_neg (by bv_omega), if_neg (by bv_omega), State.withRead_of_lt hc]

/-! ## Operands -/

@[simp] theorem State.value_imm (s : State) (v : Word) : s.value (.imm v) = .ok v := rfl
@[simp] theorem State.value_addr (s : State) (a : Word) : s.value (.addr a) = .ok a := rfl
@[simp] theorem State.value_none (s : State) : s.value .none = .error .illegalInstruction := rfl

theorem State.value_reg_of_lt {s : State} {r : Word} (h : r.toNat < 16) :
    s.value (.reg r) = .ok (s.reg ⟨r.toNat, h⟩) := dif_pos h

theorem State.value_reg_of_ge {s : State} {r : Word} (h : ¬r.toNat < 16) :
    s.value (.reg r) = .error .registerOutOfRange := dif_neg h

theorem dstreg_of_lt {r : Word} (h : r.toNat < 16) : dstreg (.reg r) = .ok ⟨r.toNat, h⟩ := dif_pos h

theorem dstreg_of_ge {r : Word} (h : ¬r.toNat < 16) : dstreg (.reg r) = .error .registerOutOfRange := dif_neg h

/-- A value operand reads registers only. -/
theorem State.value_congr {s t : State} (h : s.regs = t.regs) (op : Operand) : s.value op = t.value op := by
  cases op <;> simp only [State.value, State.reg, h]

/-- `resolvesTo` says what `value` answers. -/
theorem State.resolvesTo_iff {s : State} {op : Operand} {v : Word} : s.resolvesTo op v = true ↔ s.value op = .ok v := by
  cases op with
  | none => simp [State.resolvesTo, State.value]
  | imm w => simp [State.resolvesTo]
  | addr w => simp [State.resolvesTo]
  | reg r =>
    by_cases h : r.toNat < 16
    · simp [State.resolvesTo, State.value_reg_of_lt h, h, State.reg]
    · simp [State.resolvesTo, State.value_reg_of_ge h, h]

theorem State.withValue_of_ok {s : State} {op : Operand} {v : Word} (h : s.value op = .ok v) (k : Word → Result) :
    s.withValue op k = k v := by rw [State.withValue, h]

theorem State.withDst_of_lt {s : State} {r : Word} (h : r.toNat < 16) (k : Fin 16 → Result) :
    s.withDst (.reg r) k = k ⟨r.toNat, h⟩ := by rw [State.withDst, dstreg_of_lt h]

@[simp] theorem State.needRegister_reg (s : State) (r : Word) (k : Result) : s.needRegister (.reg r) k = k := rfl

@[simp] theorem State.needValue_none (s : State) (k : Result) :
    s.needValue .none k = s.trap .illegalInstruction := rfl

theorem State.needValue_of_ne {s : State} {op : Operand} (h : op ≠ .none) (k : Result) : s.needValue op k = k := by
  cases op <;> first | rfl | exact absurd rfl h

/-- An operand that resolves is not None. -/
theorem State.ne_none_of_value {s : State} {op : Operand} {v : Word} (h : s.value op = .ok v) : op ≠ .none := by
  rintro rfl
  cases h

theorem State.needValue_of_ok {s : State} {op : Operand} {v : Word} (h : s.value op = .ok v) (k : Result) :
    s.needValue op k = k := State.needValue_of_ne (State.ne_none_of_value h) k

/-- Resolving a value: the fault it raises, or the value it goes on with. -/
theorem State.withValue_next {s t : State} {op : Operand} {k : Word → Result} (h : s.withValue op k = .next t) :
    (∃ c, t = s.raise c) ∨ ∃ v, s.value op = .ok v ∧ k v = .next t := by
  unfold State.withValue at h
  split at h
  · exact .inr ⟨_, ‹_›, h⟩
  · exact .inl ⟨_, by injection h with h; exact h.symm⟩

/-- Resolving a destination: the fault it raises, or the register it goes on with. -/
theorem State.withDst_next {s t : State} {op : Operand} {k : Fin 16 → Result} (h : s.withDst op k = .next t) :
    (∃ c, t = s.raise c) ∨ ∃ d, dstreg op = .ok d ∧ k d = .next t := by
  unfold State.withDst at h
  split at h
  · exact .inr ⟨_, ‹_›, h⟩
  · exact .inl ⟨_, by injection h with h; exact h.symm⟩

theorem State.needValue_next {s t : State} {op : Operand} {k : Result} (h : s.needValue op k = .next t) :
    (∃ c, t = s.raise c) ∨ k = .next t := by
  cases op with
  | none => exact .inl ⟨_, by injection h with h; exact h.symm⟩
  | imm _ | reg _ | addr _ => exact .inr h

theorem State.needRegister_next {s t : State} {op : Operand} {k : Result} (h : s.needRegister op k = .next t) :
    (∃ c, t = s.raise c) ∨ k = .next t := by
  cases op with
  | reg _ => exact .inr h
  | none | imm _ | addr _ => exact .inl ⟨_, by injection h with h; exact h.symm⟩

/-! ## Placing a word (log 4) -/

@[simp] theorem State.placeWord_regs (s : State) (w : MemWord) : (s.placeWord w).regs = s.regs := rfl
@[simp] theorem State.placeWord_zf (s : State) (w : MemWord) : (s.placeWord w).zf = s.zf := rfl
@[simp] theorem State.placeWord_cf (s : State) (w : MemWord) : (s.placeWord w).cf = s.cf := rfl
@[simp] theorem State.placeWord_out (s : State) (w : MemWord) : (s.placeWord w).out = s.out := rfl
@[simp] theorem State.placeWord_status (s : State) (w : MemWord) : (s.placeWord w).status = .running := rfl
@[simp] theorem State.placeWord_ip (s : State) (w : MemWord) : (s.placeWord w).ip = s.fetchIndex := rfl
@[simp] theorem State.placeWord_mem (s : State) (w : MemWord) :
    (s.placeWord w).mem = s.mem.writeWord s.fetchIndex.toNat w := rfl

/-- The placed word lies in the code region, and in the memory. -/
theorem State.placeWord_fetchable (s : State) (w : MemWord) :
    (s.placeWord w).ip < (s.placeWord w).lowSp ∧ (s.placeWord w).ip.toNat < (s.placeWord w).capacity.toNat := by
  simp only [State.placeWord, State.lowSpOver, State.fetchIndex]
  constructor <;> split_ifs <;> bv_omega

end Sys2Proof.Machine
end

