-- ==== Sys2Proof/Laws/Exec.lean ====
section
/-! SUPPORT. For each meaning, once, everything it can do: if it answers a next state, it took a fault (nothing but the
status changed) or had its effect. -/

namespace Sys2Proof.Machine

theorem execNoop_next {s t : State} (h : execNoop s = .next t) : t = s.advance := by
  injection h with h; exact h.symm

theorem execHalt_next {s t : State} (h : execHalt s = .next t) : t = s.halt.advance := by
  injection h with h; exact h.symm

theorem execMov_next {dst src : Operand} {s t : State} (h : execMov dst src s = .next t) :
    (∃ c, t = s.raise c) ∨ ∃ d v, dstreg dst = .ok d ∧ s.value src = .ok v ∧ t = (s.writeReg d v).advance := by
  rcases State.needRegister_next h with h | h
  · exact .inl h
  rcases State.needValue_next h with h | h
  · exact .inl h
  rcases State.withDst_next h with h | ⟨d, hd, h⟩
  · exact .inl h
  rcases State.withValue_next h with h | ⟨v, hv, h⟩
  · exact .inl h
  injection h with h
  exact .inr ⟨d, v, hd, hv, h.symm⟩

theorem execAdd_next {dst src : Operand} {s t : State} (h : execAdd dst src s = .next t) :
    (∃ c, t = s.raise c) ∨
      ∃ d v, dstreg dst = .ok d ∧ s.value src = .ok v ∧ t = (s.writeReg d (s.reg d + v)).advance := by
  rcases State.needRegister_next h with h | h
  · exact .inl h
  rcases State.needValue_next h with h | h
  · exact .inl h
  rcases State.withDst_next h with h | ⟨d, hd, h⟩
  · exact .inl h
  rcases State.withValue_next h with h | ⟨v, hv, h⟩
  · exact .inl h
  injection h with h
  exact .inr ⟨d, v, hd, hv, h.symm⟩

theorem execPush_next {src : Operand} {s t : State} (h : execPush src s = .next t) :
    (∃ c, t = s.raise c) ∨
      ∃ v, s.value src = .ok v ∧ s.sp.toNat < s.capacity.toNat ∧
        t = (State.setSp { s with mem := s.mem.writeWord s.sp.toNat (cellOf v) } (s.sp + 1)).advance := by
  rcases State.needValue_next h with h | h
  · exact .inl h
  split at h
  · exact .inl ⟨_, by injection h with h; exact h.symm⟩
  rcases State.withValue_next h with h | ⟨v, hv, h⟩
  · exact .inl h
  obtain ⟨hc, h⟩ := State.withWrite_next h
  injection h with h
  exact .inr ⟨v, hv, hc, h.symm⟩

theorem execPop_next {dst : Operand} {s t : State} (h : execPop dst s = .next t) :
    (∃ c, t = s.raise c) ∨
      ∃ d, dstreg dst = .ok d ∧ s.sp ≠ s.lowSp ∧ (s.sp - 1).toNat < s.capacity.toNat ∧
        t = ((s.setSp (s.sp - 1)).writeReg d (datumOf (s.mem.readWord (s.sp - 1).toNat))).advance := by
  rcases State.needRegister_next h with h | h
  · exact .inl h
  split at h
  · exact .inl ⟨_, by injection h with h; exact h.symm⟩
  rcases State.withDst_next h with h | ⟨d, hd, h⟩
  · exact .inl h
  obtain ⟨hc, h⟩ := State.withRead_next h
  injection h with h
  exact .inr ⟨d, hd, ‹_›, hc, h.symm⟩

theorem State.printCell_next {s t : State} (h : s.printCell = .next t) :
    (∃ c, t = s.raise c) ∨
      (¬s.cellOutside ∧ t = (s.emit (datumOf (s.mem.readWord s.printIndex.toNat)).toInt).advance) := by
  unfold State.printCell at h
  split at h
  · exact .inl ⟨_, by injection h with h; exact h.symm⟩
  · obtain ⟨_, h⟩ := State.withRead_next h
    injection h with h
    exact .inr ⟨‹_›, h.symm⟩

theorem execInt_next {n : Operand} {s t : State} (h : execInt n s = .next t) :
    (∃ c, t = s.raise c) ∨
    (∃ v, s.value n = .ok v ∧ v ≠ 4 ∧ t = s.advance) ∨
    (s.value n = .ok 4 ∧ ¬s.cellOutside ∧
      t = (s.emit (datumOf (s.mem.readWord s.printIndex.toNat)).toInt).advance) := by
  rcases State.needValue_next h with h | h
  · exact .inl h
  rcases State.withValue_next h with h | ⟨v, hv, h⟩
  · exact .inl h
  split at h
  · subst v
    rcases State.printCell_next h with h | ⟨ho, h⟩
    · exact .inl h
    · exact .inr (.inr ⟨hv, ho, h⟩)
  · injection h with h
    exact .inr (.inl ⟨v, hv, ‹_›, h.symm⟩)

theorem execCmp_next {a b : Operand} {s t : State} (h : execCmp a b s = .next t) :
    (∃ c, t = s.raise c) ∨
      ∃ va vb, s.value a = .ok va ∧ s.value b = .ok vb ∧ t = (s.compare va vb).advance := by
  rcases State.needValue_next h with h | h
  · exact .inl h
  rcases State.needValue_next h with h | h
  · exact .inl h
  rcases State.withValue_next h with h | ⟨va, ha, h⟩
  · exact .inl h
  rcases State.withValue_next h with h | ⟨vb, hb, h⟩
  · exact .inl h
  injection h with h
  exact .inr ⟨va, vb, ha, hb, h.symm⟩

/-- What the seven jumps can do. -/
theorem State.jumpIf_next {s t : State} {taken : Bool} {target : Operand} (h : s.jumpIf taken target = .next t) :
    (∃ c, t = s.raise c) ∨ ∃ v, s.value target = .ok v ∧ t = s.branch taken v := by
  rcases State.needValue_next h with h | h
  · exact .inl h
  rcases State.withValue_next h with h | ⟨v, hv, h⟩
  · exact .inl h
  injection h with h
  exact .inr ⟨v, hv, h.symm⟩

/-- The seven jumps are `jumpIf` of slot a. -/
theorem exec_jump {i : Instr} {s : State} (h : i.isJump = true) : ∃ taken, exec i s = s.jumpIf taken i.slotA := by
  cases i <;> first | exact ⟨_, rfl⟩ | cases h

/-! ## The step -/

/-- What a step can do (R141). -/
theorem step_next {s t : State} (h : step s = .next t) :
    (s.status ≠ .running ∧ t = s) ∨
    (s.status = .running ∧ s.ip = s.lowSp ∧ t = s.halt) ∨
    (s.status = .running ∧ ∃ c, t = s.raise c) ∨
    (s.status = .running ∧ s.ip < s.lowSp ∧ s.ip.toNat < s.capacity.toNat ∧
      ∃ i, decode (s.mem.readWord s.ip.toNat) = .ok i ∧ exec i s = .next t) := by
  unfold step at h
  split at h
  · left; injection h with h; simp_all
  · left; injection h with h; simp_all
  · right
    rcases State.withFetch_next h with ⟨h1, h2⟩ | ⟨_, h2⟩ | ⟨h1, h2, h3⟩
    · exact .inl ⟨‹_›, h1, h2⟩
    · exact .inr (.inl ⟨‹_›, _, h2⟩)
    · split at h3
      · exact .inr (.inr ⟨‹_›, h1, h2, _, ‹_›, h3⟩)
      · exact .inr (.inl ⟨‹_›, _, by injection h3 with h3; exact h3.symm⟩)

end Sys2Proof.Machine
end

