-- ==== Sys2Proof/Laws/PerInstr.lean ====
section
/-! SUPPORT. The statements made for every instruction, one lemma per constructor. -/

namespace Sys2Proof.Laws

/-- The `mask` of every row of `spec/opcode_table.json`: the opcode field. -/
def tableMask : MemWord := 0xF000000000000000000000000000000000

/-- The `match` of the instruction's row. -/
def tableMatch : Instr → MemWord
  | .noop _ _ => 0x0000000000000000000000000000000000
  | .halt _ _ => 0x1000000000000000000000000000000000
  | .mov _ _ => 0x2000000000000000000000000000000000
  | .add _ _ => 0x3000000000000000000000000000000000
  | .push _ _ => 0x4000000000000000000000000000000000
  | .pop _ _ => 0x5000000000000000000000000000000000
  | .int _ _ => 0x6000000000000000000000000000000000
  | .cmp _ _ => 0x7000000000000000000000000000000000
  | .jmp _ _ => 0x8000000000000000000000000000000000
  | .je _ _ => 0x9000000000000000000000000000000000
  | .jne _ _ => 0xA000000000000000000000000000000000
  | .jl _ _ => 0xB000000000000000000000000000000000
  | .jle _ _ => 0xC000000000000000000000000000000000
  | .jg _ _ => 0xD000000000000000000000000000000000
  | .jge _ _ => 0xE000000000000000000000000000000000

/-- The encoding of the instruction, under the mask of its row in the opcode table, is the row's pattern (R83, R94). -/
def OpcodeRow.Statement (i : Instr) : Prop :=
  encode i &&& tableMask = tableMatch i

theorem tableMask_bit : ∀ k : Fin 136, tableMask.getLsbD k = decide (132 ≤ k.val) := by decide

/-- The mask keeps the opcode field and nothing else. -/
theorem and_tableMask (w : MemWord) : w &&& tableMask = (opcField w).setWidth 136 <<< 132 := by
  apply BitVec.eq_of_getLsbD_eq
  intro k hk
  rw [BitVec.getLsbD_and, tableMask_bit ⟨k, hk⟩]
  by_cases h : 132 ≤ k
  · simp [opcField, h, hk, show k - 132 < 4 by omega, show 132 + (k - 132) = k by omega]
  · simp [h]

theorem OpcodeRow.of_opcode {i : Instr} (h : i.opcode.setWidth 136 <<< 132 = tableMatch i) : OpcodeRow.Statement i := by
  rw [OpcodeRow.Statement, and_tableMask, opcField_encode, h]

theorem OpcodeRow.noop (a b : Operand) : OpcodeRow.Statement (.noop a b) :=
  OpcodeRow.of_opcode (by simp [Instr.opcode, tableMatch])
theorem OpcodeRow.halt (a b : Operand) : OpcodeRow.Statement (.halt a b) :=
  OpcodeRow.of_opcode (by simp [Instr.opcode, tableMatch])
theorem OpcodeRow.mov (a b : Operand) : OpcodeRow.Statement (.mov a b) :=
  OpcodeRow.of_opcode (by simp [Instr.opcode, tableMatch])
theorem OpcodeRow.add (a b : Operand) : OpcodeRow.Statement (.add a b) :=
  OpcodeRow.of_opcode (by simp [Instr.opcode, tableMatch])
theorem OpcodeRow.push (a b : Operand) : OpcodeRow.Statement (.push a b) :=
  OpcodeRow.of_opcode (by simp [Instr.opcode, tableMatch])
theorem OpcodeRow.pop (a b : Operand) : OpcodeRow.Statement (.pop a b) :=
  OpcodeRow.of_opcode (by simp [Instr.opcode, tableMatch])
theorem OpcodeRow.int (a b : Operand) : OpcodeRow.Statement (.int a b) :=
  OpcodeRow.of_opcode (by simp [Instr.opcode, tableMatch])
theorem OpcodeRow.cmp (a b : Operand) : OpcodeRow.Statement (.cmp a b) :=
  OpcodeRow.of_opcode (by simp [Instr.opcode, tableMatch])
theorem OpcodeRow.jmp (a b : Operand) : OpcodeRow.Statement (.jmp a b) :=
  OpcodeRow.of_opcode (by simp [Instr.opcode, tableMatch])
theorem OpcodeRow.je (a b : Operand) : OpcodeRow.Statement (.je a b) :=
  OpcodeRow.of_opcode (by simp [Instr.opcode, tableMatch])
theorem OpcodeRow.jne (a b : Operand) : OpcodeRow.Statement (.jne a b) :=
  OpcodeRow.of_opcode (by simp [Instr.opcode, tableMatch])
theorem OpcodeRow.jl (a b : Operand) : OpcodeRow.Statement (.jl a b) :=
  OpcodeRow.of_opcode (by simp [Instr.opcode, tableMatch])
theorem OpcodeRow.jle (a b : Operand) : OpcodeRow.Statement (.jle a b) :=
  OpcodeRow.of_opcode (by simp [Instr.opcode, tableMatch])
theorem OpcodeRow.jg (a b : Operand) : OpcodeRow.Statement (.jg a b) :=
  OpcodeRow.of_opcode (by simp [Instr.opcode, tableMatch])
theorem OpcodeRow.jge (a b : Operand) : OpcodeRow.Statement (.jge a b) :=
  OpcodeRow.of_opcode (by simp [Instr.opcode, tableMatch])

end Sys2Proof.Laws
end

