-- ==== Sys2Proof/Tests/Slice0.lean ====
section
/-! SUPPORT. Tests on fixed values. The words and the expected results are those of `spec/95_test_vectors.md`, or are
written out by hand from the rule a test names. The last part shows, for every statement with hypotheses, values that
meet them all. -/

namespace Sys2Proof.Tests

open Sys2Proof.Machine

/-! ## Helpers -/

/-- What `p` says of a next state; false of a fault or a refusal. -/
def onNext (r : Result) (p : State → Bool) : Bool :=
  match r with
  | .next t => p t
  | .fault _ | .refused _ => false

/-- The state of sections 2.5 and 2.6 of the vectors: `LOW_SP = 3`, `CAPACITY = 5`; here with `x[1] = 7`, one value 7 on
the stack, and a code region of three words, the first of them `MOV eax 5`. -/
def good : State :=
  { State.reset with
    regs := State.reset.regs.set 1 7
    sp := 4
    lowSp := 3
    capacity := 5
    mem := Memory.writeWord (Memory.writeWord [] 0 0x2900000000000000010000000000000005) 3 (cellOf 7) }

/-- `good` with the stack pointer `p`. -/
def withSp (p : Word) : State := { good with sp := p }

/-- `good` with `ecx = v` and an empty stack. -/
def withEcx (v : Word) : State := { good with regs := good.regs.set 2 v, sp := 3 }

/-- The state of section 2.8: `LOW_SP = 8`, `ip = 3`, the flags given. -/
def atJump (z c : Bool) : State :=
  { State.reset with ip := 3, lowSp := 8, capacity := 12, sp := 8, zf := z, cf := c }

/-- What `p` says after one step that runs the word `w`, placed where `s` fetches. -/
def after (s : State) (w : Nat) (p : State → Bool) : Bool :=
  onNext (step (s.withFetchWord 136 w)) p

/-- Only the status has changed, to this fault. -/
def faultsWith (s : State) (w : Nat) (c : Cause) : Bool :=
  after s w fun t => t = (s.withFetchWord 136 w).raise c

/-! ## Well-formedness: a term that each check refuses -/

theorem test_wellFormed_refuses_destination_none : Instr.wellFormed (.mov .none (.imm 5)) = false := by decide
theorem test_wellFormed_refuses_destination_imm : Instr.wellFormed (.mov (.imm 5) (.reg 1)) = false := by decide
theorem test_wellFormed_refuses_destination_addr : Instr.wellFormed (.add (.addr 5) (.reg 1)) = false := by decide
theorem test_wellFormed_refuses_missing_source : Instr.wellFormed (.mov (.reg 1) .none) = false := by decide
theorem test_wellFormed_refuses_pop_imm : Instr.wellFormed (.pop (.imm 3) .none) = false := by decide
theorem test_wellFormed_refuses_push_none : Instr.wellFormed (.push .none .none) = false := by decide
theorem test_wellFormed_refuses_int_none : Instr.wellFormed (.int .none .none) = false := by decide
theorem test_wellFormed_refuses_cmp_one_operand :
    Instr.wellFormed (.cmp (.reg 1) .none) = false ∧ Instr.wellFormed (.cmp .none (.reg 1)) = false := by decide
theorem test_wellFormed_refuses_jump_none :
    ∀ j ∈ [Instr.jmp, .je, .jne, .jl, .jle, .jg, .jge], Instr.wellFormed (j .none .none) = false := by decide
theorem test_wellFormed_refuses_register_16 :
    Instr.wellFormed (.mov (.reg 16) (.imm 5)) = false ∧ Instr.wellFormed (.cmp (.imm 1) (.reg 16)) = false ∧
      Instr.wellFormed (.jmp (.reg 16) .none) = false := by decide
/-- R90: an ignored slot is not checked. -/
theorem test_wellFormed_takes_ignored_slots :
    Instr.wellFormed (.noop (.reg 99) (.reg 77)) = true ∧ Instr.wellFormed (.push (.imm 1) (.reg 99)) = true ∧
      Instr.wellFormed (.mov (.reg 15) (.addr 6)) = true := by decide

/-! ## Decoding (section 2.1; the words of JE, JNE, JL and JLE written out from R81, R83, R84) -/

theorem test_decode_noop :
    decodeTableWord 136 0x0A0000000000000063000000000000004D = some (.noop (.reg 99) (.reg 77)) := by decide
theorem test_decode_halt :
    decodeTableWord 136 0x1000000000000000000000000000000000 = some (.halt .none .none) := by decide
theorem test_decode_mov :
    decodeTableWord 136 0x2B00000000000000010000000000000006 = some (.mov (.reg 1) (.addr 6)) := by decide
theorem test_decode_add :
    decodeTableWord 136 0x390000000000000002FFFFFFFFFFFFFFFF = some (.add (.reg 2) (.imm (-1))) := by decide
theorem test_decode_push :
    decodeTableWord 136 0x44000000000000000A0000000000000000 = some (.push (.imm 10) .none) := by decide
theorem test_decode_pop :
    decodeTableWord 136 0x58000000000000000400000000DEADBEEF = some (.pop (.reg 4) .none) := by decide
theorem test_decode_int :
    decodeTableWord 136 0x6800000000000000010000000000000000 = some (.int (.reg 1) .none) := by decide
theorem test_decode_cmp :
    decodeTableWord 136 0x75FFFFFFFFFFFFFFFF0000000000000000 = some (.cmp (.imm (-1)) (.imm 0)) := by decide
theorem test_decode_jmp :
    decodeTableWord 136 0x8800000000000000040000000000000000 = some (.jmp (.reg 4) .none) := by decide
theorem test_decode_je :
    decodeTableWord 136 0x9C00000000000000060000000000000000 = some (.je (.addr 6) .none) := by decide
theorem test_decode_jne :
    decodeTableWord 136 0xA400000000000000060000000000000000 = some (.jne (.imm 6) .none) := by decide
theorem test_decode_jl :
    decodeTableWord 136 0xBC00000000000000060000000000000000 = some (.jl (.addr 6) .none) := by decide
theorem test_decode_jle :
    decodeTableWord 136 0xC800000000000000060000000000000000 = some (.jle (.reg 6) .none) := by decide
theorem test_decode_jg :
    decodeTableWord 136 0xDC00000000000000020000000000000000 = some (.jg (.addr 2) .none) := by decide
theorem test_decode_jge :
    decodeTableWord 136 0xEC00000000000000050000000000000000 = some (.jge (.addr 5) .none) := by decide
theorem test_decode_rejects_opcode_15 :
    decode 0xF000000000000000000000000000000000 = .error .reservedOpcode ∧
      decode 0xFFFFFFFFFFFFFFFFFFFFFFFFFFFFFFFFFF = .error .reservedOpcode := by decide
/-- R61: the bytes of `MOV eax 5` in a stored image, and a byte string that is too short. -/
theorem test_decodeBytes :
    decodeBytes [0x29, 0, 0, 0, 0, 0, 0, 0, 1, 0, 0, 0, 0, 0, 0, 0, 5, 0x10] =
        .ok (.mov (.reg 1) (.imm 5), [0x10]) ∧
      decodeBytes [0x29, 0, 0] = .error .shortWord := by decide

/-! ## One step of each instruction (sections 2.3 to 2.8) -/

theorem test_noop_advances :
    after good 0x0A0000000000000063000000000000004D
      (fun t => t.ip = 1 && t.status = .running && t.regs = good.regs) = true := by decide
theorem test_halt_advances :
    after good 0x1000000000000000000000000000000000 (fun t => t.ip = 1 && t.status = .halted) = true := by decide
theorem test_mov_register_zero_to_fifteen :
    after { good with regs := good.regs.set 0 42 } 0x2A000000000000000F0000000000000000
      (fun t => t.regs[15] = 42 && t.regs[0] = 42 && t.ip = 1) = true := by decide
theorem test_mov_faults :
    faultsWith good 0x2900000000000000100000000000000005 .registerOutOfRange = true ∧
      faultsWith good 0x2600000000000000050000000000000001 .illegalInstruction = true := by decide
theorem test_add_wraps_to_negative_and_keeps_flags :
    after { good with regs := good.regs.set 1 0x7FFFFFFFFFFFFFFF, zf := true } 0x3900000000000000010000000000000001
      (fun t => t.regs[1] = 0x8000000000000000 && t.zf && !t.cf && t.ip = 1) = true := by decide
theorem test_add_register_to_itself :
    after { good with regs := good.regs.set 1 3 } 0x3A00000000000000010000000000000001
      (fun t => t.regs[1] = 6) = true := by decide
theorem test_push_negative_fills_low_bits_only :
    after good 0x44FFFFFFFFFFFFFFFF0000000000000000
      (fun t => t.mem.readWord 4 = 0x000000000000000000FFFFFFFFFFFFFFFF && t.sp = 5 && t.ip = 1) = true := by decide
theorem test_push_overflow_comes_before_register_range :
    faultsWith (withSp 5) 0x4800000000000000140000000000000000 .stackOverflow = true ∧
      faultsWith (withSp 3) 0x4800000000000000140000000000000000 .registerOutOfRange = true := by decide
theorem test_pop_leaves_the_cell :
    after good 0x5800000000000000030000000000000000
      (fun t => t.regs[3] = 7 && t.sp = 3 && t.mem.readWord 3 = 7 && t.ip = 1) = true := by decide
theorem test_pop_fault_order :
    faultsWith (withSp 3) 0x5800000000000000140000000000000000 .stackUnderflow = true ∧
      faultsWith (withSp 4) 0x5800000000000000140000000000000000 .registerOutOfRange = true ∧
      faultsWith (withSp 3) 0x5000000000000000000000000000000000 .illegalInstruction = true := by decide
theorem test_int_prints_signed_cell_above_sp :
    after { withEcx 1 with mem := Memory.writeWord [] 4 (cellOf 0xFFFFFFFFFFFFFFFF) }
      0x6400000000000000040000000000000000 (fun t => t.out = [-1] && t.ip = 1) = true := by decide
theorem test_int_range_and_code_width :
    faultsWith (withEcx 2) 0x6400000000000000040000000000000000 .memoryOutOfRange = true ∧
      faultsWith (withEcx (-1)) 0x6400000000000000040000000000000000 .memoryOutOfRange = true ∧
      after good 0x6400000001000000040000000000000000 (fun t => t.out = [] && t.ip = 1) = true := by decide
theorem test_cmp_difference_is_exact :
    onNext (exec (.cmp (.imm 0x8000000000000000) (.imm 1)) good) (fun t => !t.zf && t.cf && t.ip = 1) = true ∧
      onNext (exec (.cmp (.imm 0x7FFFFFFFFFFFFFFF) (.imm (-1))) good) (fun t => !t.zf && !t.cf) = true := by decide
theorem test_cmp_clears_old_flag_and_needs_both_operands :
    after { good with zf := true } 0x7500000000000000030000000000000005 (fun t => !t.zf && t.cf) = true ∧
      faultsWith { good with zf := true } 0x7800000000000000010000000000000000 .illegalInstruction = true := by decide

/-- ip after the jump `j` to `Address(6)`, in the flag states `(ZF, CF)` = (0,0), (0,1), (1,0). -/
def ipsAfter (w : Nat) : List Bool :=
  [(false, false), (false, true), (true, false)].map fun f => after (atJump f.1 f.2) w fun t => t.ip = 6

theorem test_jmp_jumps :
    ipsAfter 0x8C00000000000000060000000000000000 = [true, true, true] ∧
      after { good with regs := good.regs.set 4 2 } 0x8800000000000000040000000000000000 (fun t => t.ip = 2) = true := by
  decide
theorem test_je_jumps : ipsAfter 0x9C00000000000000060000000000000000 = [false, false, true] := by decide
theorem test_je_checks_untaken_target :
    faultsWith good 0x9000000000000000000000000000000000 .illegalInstruction = true ∧
      faultsWith good 0x9800000000000000100000000000000000 .registerOutOfRange = true := by decide
theorem test_jne_jumps : ipsAfter 0xAC00000000000000060000000000000000 = [true, true, false] := by decide
theorem test_jl_jumps : ipsAfter 0xBC00000000000000060000000000000000 = [false, true, false] := by decide
theorem test_jle_jumps : ipsAfter 0xCC00000000000000060000000000000000 = [false, true, true] := by decide
theorem test_jg_jumps : ipsAfter 0xDC00000000000000060000000000000000 = [true, false, false] := by decide
theorem test_jge_jumps : ipsAfter 0xEC00000000000000060000000000000000 = [true, false, true] := by decide
theorem test_jump_not_taken_advances :
    after (atJump false false) 0x9C00000000000000060000000000000000 (fun t => t.ip = 4) = true := by decide

/-! ## The step and the reset -/

theorem test_step_halts_at_low_sp : onNext (step State.reset) (fun t => t.status = .halted && t.ip = 0) = true := by
  decide
theorem test_step_above_low_sp_faults :
    let above : State := { good with ip := 9 }
    let negative : State := { good with ip := -1 }
    onNext (step above) (fun t => t = above.raise .invalidFetch) = true ∧
      onNext (step negative) (fun t => t = negative.raise .invalidFetch) = true := by decide
theorem test_reserved_word_faults :
    faultsWith good 0xF000000000000000000000000000000000 .illegalInstruction = true := by decide
theorem test_reset_memory_is_canonical : State.reset.mem.wf = true := by decide

/-! ## The assembler (section 2.2) -/

/-- The image of a text of these lines. -/
def imageOf (lines : List String) : Except EncodeError (List MemWord) :=
  match encodeLines (resolveLabels (lines.map String.toList)).1 0 (lines.map String.toList) with
  | .ok is => .ok (is.map encode)
  | .error (_, e) => .error e

theorem test_assemble_comments_and_labels :
    imageOf ["; only a comment", "", "HALT"] = .ok [0x1000000000000000000000000000000000] ∧
      imageOf ["NOOP", "JMP end", "end:"] = .ok [0, 0x8C00000000000000020000000000000000] ∧
      imageOf ["x: NOOP", "x: HALT", "JMP x"] =
        .ok [0, 0x1000000000000000000000000000000000, 0x8C00000000000000010000000000000000] ∧
      imageOf ["eax: NOOP", "JMP eax"] = .ok [0, 0x8800000000000000010000000000000000] := by decide
theorem test_assemble_integers :
    imageOf ["MOV eax -9223372036854775808"] = .ok [0x2900000000000000018000000000000000] ∧
      imageOf ["MOV eax 9223372036854775807"] = .ok [0x2900000000000000017FFFFFFFFFFFFFFF] ∧
      imageOf ["MOV eax 9223372036854775808"] = .error (.invalidOperand "9223372036854775808".toList) := by decide
theorem test_assemble_errors :
    imageOf ["mov eax 5"] = .error (.unknownOpcode "mov".toList) ∧
      imageOf ["MOV EAX 5"] = .error (.invalidOperand "EAX".toList) ∧
      imageOf ["MOV eax, 5"] = .error (.invalidOperand "eax,".toList) ∧
      imageOf ["MOV eax 1 2"] = .error (.invalidOperand "2".toList) := by decide
theorem test_assemble_odd_forms :
    imageOf ["POP"] = .ok [0x5000000000000000000000000000000000] ∧
      imageOf ["NOOP eax 5"] = .ok [0x0900000000000000010000000000000005] ∧
      imageOf ["MOV eax 5 ; set"] = .ok [0x2900000000000000010000000000000005] ∧
      resolveLabels ["a: b: NOOP".toList] = ([("a".toList, 0)], 1) ∧
      resolveLabels ["a: b:".toList] = ([("a".toList, 0)], 0) := by decide

/-! ## Witnesses: values that meet all hypotheses of a statement together -/

/-- `good` is a good state, with any stack pointer of the stack region and any registers. -/
theorem goodWith_inv (p : Word) (x : Vector Word 16) (h : 3 ≤ p.toNat) (h' : p.toNat ≤ 5) :
    State.Inv { good with sp := p, regs := x } where
  lowSp_le_capacity := by show good.lowSp.toNat ≤ good.capacity.toNat; decide
  capacity_lt := by show good.capacity.toNat < 2 ^ 63; decide
  lowSp_le_sp := h
  sp_le_capacity := h'
  mem_wf := by show good.mem.wf = true; decide
  mem_inside := by show ∀ c ∈ good.mem, c.1 < wordBytes * 5; decide
  stack_upper_zero := by
    show ∀ a, 3 ≤ a → a < 5 → (good.mem.readWord a).extractLsb' 64 72 = 0
    intro a h1 h2
    have : a = 3 ∨ a = 4 := by omega
    rcases this with rfl | rfl <;> decide
  flags_exclusive := by show ¬(good.zf = true ∧ good.cf = true); decide
  out_signed64 := by show ∀ v ∈ good.out, -2 ^ 63 ≤ v ∧ v < 2 ^ 63; decide

theorem test_good_is_good : good.Inv := goodWith_inv 4 good.regs (by decide) (by decide)
theorem test_withSp_is_good : (withSp 3).Inv ∧ (withSp 5).Inv :=
  ⟨goodWith_inv 3 good.regs (by decide) (by decide), goodWith_inv 5 good.regs (by decide) (by decide)⟩
theorem test_withEcx_is_good (v : Word) : (withEcx v).Inv := goodWith_inv 3 _ (by decide) (by decide)

theorem test_witness_EncodeFollowsFormulaAndDecodesBack :
    Instr.slotA (.noop .none .none) = .none ∧ Instr.slotB (.push (.imm 1) .none) = .none := by decide
theorem test_witness_OpcodeFieldSelectsInstruction :
    ∀ k : Fin 16, (BitVec.ofNat 136 (k.val * 2 ^ 132) : MemWord).extractLsb' 132 4 = BitVec.ofNat 4 k.val := by decide
theorem test_witness_DecodedWordEncodesBack :
    let w : MemWord := 0x5800000000000000040000000000000000
    decode w = .ok (.pop (.reg 4) .none) ∧ (taField w = 0 → vaField w = 0) ∧ (tbField w = 0 → vbField w = 0) := by decide
theorem test_witness_NoneValueFieldIsIgnored :
    let w : MemWord := 0x5800000000000000040000000000000000
    let w' : MemWord := 0x58000000000000000400000000DEADBEEF
    opcField w = opcField w' ∧ taField w = taField w' ∧ tbField w = tbField w' ∧
      (taField w ≠ 0 → vaField w = vaField w') ∧ (tbField w ≠ 0 → vbField w = vbField w') ∧ w ≠ w' ∧
      Instr.slotA (.noop .none .none) = .none ∧ Instr.slotB (.noop .none .none) = .none := by decide
theorem test_witness_OperandsResolve : (15 : Word).toNat < 16 ∧ 16 ≤ (16 : Word).toNat := by decide
theorem test_witness_RegisterWriteReadsBack : (0 : Fin 16) ≠ 15 := by decide
theorem test_witness_MovWritesDestination :
    (15 : Word).toNat < 16 ∧ good.value (.reg 1) = .ok 7 ∧ good.value (.reg 15) = .ok 0 := by decide
theorem test_witness_AddWritesWrappedSum : (0 : Word).toNat < 16 ∧ good.value (.imm (-1)) = .ok (-1) := by decide
theorem test_witness_PushStoresAtSpAndIncrements :
    good.value (.reg 1) = .ok 7 ∧ good.sp.toNat < good.capacity.toNat ∧ good.mem.wf = true ∧
      good.sp.toNat + 1 = good.capacity.toNat ∧ good.mem.readByte 67 = 7 := by decide
theorem test_witness_PopLoadsTopAndDecrements :
    (15 : Word).toNat < 16 ∧ good.sp ≠ good.lowSp ∧ (good.sp - 1).toNat < good.capacity.toNat := by decide
theorem test_witness_UnrecognisedInterruptDoesNothing :
    good.value (.imm 3) = .ok 3 ∧ (3 : Word) ≠ 4 ∧ good.value (.imm 0x100000004) = .ok 0x100000004 ∧
      (0x100000004 : Word) ≠ 4 ∧ 16 ≤ (16 : Word).toNat := by decide
/-- Each clause at both ends of its range: the cells 0 and 1 that exist, and the numbers -1 and 2 next to them. -/
theorem test_witness_InterruptFourPrintsStackCell :
    (withEcx 0).value (.imm 4) = .ok 4 ∧
      (0 ≤ (withEcx 0).regs[2].toInt ∧ (withEcx 0).lowSp.toNat + (withEcx 0).regs[2].toInt = (3 : Nat) ∧
        3 < (withEcx 0).capacity.toNat) ∧
      (0 ≤ (withEcx 1).regs[2].toInt ∧ (withEcx 1).lowSp.toNat + (withEcx 1).regs[2].toInt = (4 : Nat) ∧
        4 < (withEcx 1).capacity.toNat) ∧
      (withEcx (-1)).regs[2].toInt < 0 ∧
      (withEcx 2).capacity.toNat ≤ (withEcx 2).lowSp.toNat + (withEcx 2).regs[2].toInt := by decide
theorem test_witness_CmpSetsZeroAndLess : good.value (.reg 1) = .ok 7 ∧ good.value (.imm 5) = .ok 5 := by decide
theorem test_witness_CmpForgetsOldFlags : good.value (.addr 6) = .ok 6 ∧ good.value (.reg 15) = .ok 0 := by decide
theorem test_witness_JmpWritesTarget : good.value (.addr 6) = .ok 6 ∧ good.value (.imm (-1)) = .ok (-1) := by decide
theorem test_witness_ConditionalJumpsFollowFlags : (atJump false true).value (.addr 6) = .ok 6 := by decide
theorem test_witness_JumpsAfterCmpFollowSignedOrder :
    good.value (.reg 1) = .ok 7 ∧ good.value (.imm 7) = .ok 7 ∧ good.value (.imm 8) = .ok 8 ∧
      good.value (.imm (-1)) = .ok (-1) ∧ good.value (.addr 6) = .ok 6 ∧
      (7 : Word).toInt = (7 : Word).toInt ∧ (7 : Word).toInt < (8 : Word).toInt ∧
      (-1 : Word).toInt < (7 : Word).toInt := by decide
theorem test_witness_PopAfterPushReturnsValue :
    (15 : Word).toNat < 16 ∧ good.Inv ∧ good.value (.reg 1) = .ok 7 ∧ good.sp ≠ good.capacity :=
  ⟨by decide, test_good_is_good, by decide, by decide⟩
theorem test_witness_StackIsLastInFirstOut :
    (1 : Word).toNat < 16 ∧ (3 : Word).toNat < 16 ∧ (withSp 3).Inv ∧ (withSp 3).value (.imm 10) = .ok 10 ∧
      (withSp 3).value (.imm 20) = .ok 20 ∧ (withSp 3).sp.toNat + 2 ≤ (withSp 3).capacity.toNat :=
  ⟨by decide, by decide, test_withSp_is_good.1, by decide, by decide, by decide⟩
/-- For each opcode that a clause leaves out, an instruction of another opcode that completes. -/
theorem test_witness_OnlyNamedInstructionsWriteEachPart :
    onNext (exec (.cmp (.reg 1) (.imm 8)) good) (fun t => t.cf) = true ∧
      onNext (exec (.mov (.reg 1) (.imm 5)) good) (fun t => t.regs[1] = 5) = true ∧
      onNext (exec (.push (.imm 9) .none) good) (fun t => t.sp = 5) = true := by decide
theorem test_witness_PushOnFullStackOverflows :
    (withSp 5).sp = (withSp 5).capacity ∧ Operand.reg 20 ≠ .none := by decide
theorem test_witness_PopOnEmptyStackUnderflows :
    (withSp 3).sp = (withSp 3).lowSp ∧ Operand.isRegister (.imm 3) = false ∧ Operand.isRegister .none = false := by decide
theorem test_witness_UntakenJumpStillChecksTarget :
    Instr.jge ∈ [Instr.je, Instr.jne, Instr.jl, Instr.jle, Instr.jg, Instr.jge] ∧
      16 ≤ (16 : Word).toNat ∧ (15 : Word).toNat < 16 := by simp
/-- Each side of the rule: a legal word, the reserved opcode, and one word of each listed form. -/
theorem test_witness_IllegalWordsAreExactlyTheListed :
    (good.status = .running ∧ good.ip < good.lowSp ∧ good.ip.toNat < good.capacity.toNat) ∧
      onNext (step good) (fun t => t.status = .running) = true ∧
      ∀ w ∈ [0xF000000000000000000000000000000000, 0x2600000000000000050000000000000001,
        0x2800000000000000010000000000000000, 0x7800000000000000010000000000000000,
        0x4000000000000000000000000000000000], faultsWith good w .illegalInstruction = true := by decide
theorem test_witness_FirstFaultInOrderIsReported :
    (({ good with ip := 4 } : State).status = .running ∧ ({ good with ip := 4 } : State).lowSp < 4) ∧
      (good.Inv ∧ (withSp 5).Inv ∧ (withSp 3).Inv ∧ (withEcx 2).Inv ∧ (withEcx 1).Inv ∧ good.status = .running) ∧
      (good.firstFault (.mov (.imm 5) (.reg 16)) = some .illegalInstruction ∧
        (withSp 5).firstFault (.push (.reg 16) .none) = some .stackOverflow ∧
        (withSp 3).firstFault (.pop (.reg 16) .none) = some .stackUnderflow ∧
        good.firstFault (.pop (.reg 16) .none) = some .registerOutOfRange ∧
        (withEcx 2).firstFault (.int (.imm 4) .none) = some .memoryOutOfRange ∧
        (withEcx 1).firstFault (.int (.imm 4) .none) = none ∧ good.firstFault (.halt .none .none) = none) :=
  ⟨by decide, ⟨test_good_is_good, test_withSp_is_good.2, test_withSp_is_good.1, test_withEcx_is_good 2,
    test_withEcx_is_good 1, by decide⟩, by decide⟩
theorem test_witness_FaultChangesStatusAlone :
    let s : State := { good with ip := 9 }
    s.status = .running ∧ onNext (step s) (fun t => t = s.raise .invalidFetch) = true ∧
      (s.raise .invalidFetch).status = .faulted .invalidFetch := by decide
theorem test_witness_StoppedMachineStays :
    good.halt.status ≠ .running ∧ (good.raise .stackOverflow).status ≠ .running := by decide
/-- Each clause where it meets the next: `ip = LOW_SP - 1`, `LOW_SP`, `LOW_SP + 1`, and -1. -/
theorem test_witness_FetchCheckOrdersIpAgainstLowSp :
    good.status = .running ∧ good.lowSp = 3 ∧ (3 : Word) < 4 ∧ good.lowSp.toNat < 2 ^ 63 ∧ (-1 : Word).toInt < 0 ∧
      (2 : Word) < good.lowSp ∧ (2 : Word).toNat < good.capacity.toNat ∧
      decode (good.mem.readWord 2) = .ok (.noop .none .none) ∧
      decode ((good.mem.writeWord 2 0xF000000000000000000000000000000000).readWord 2) = .error .reservedOpcode := by decide
theorem test_witness_StepRunsDecodedInstruction :
    good.status = .running ∧ good.ip < good.lowSp ∧ good.ip.toNat < good.capacity.toNat ∧
      decode (good.mem.readWord good.ip.toNat) = .ok (.mov (.reg 1) (.imm 5)) := by decide
theorem test_witness_PlacedWordIsRunNext :
    State.reset.mem.wf = true ∧
      decodeTableWord 136 0x1000000000000000000000000000000000 = some (.halt .none .none) := by decide
theorem test_witness_IpStepsByOneWithinProgram :
    good.Inv ∧ good.status = .running ∧ good.ip < good.lowSp ∧
      decode (good.mem.readWord good.ip.toNat) = .ok (.mov (.reg 1) (.imm 5)) ∧
      Instr.isJump (.mov (.reg 1) (.imm 5)) = false ∧ onNext (step good) (fun t => t.notFaulted) = true :=
  ⟨test_good_is_good, by decide, by decide, by decide, by decide, by decide⟩
/-- The three endings: HALT, running off the end, a fault. -/
theorem test_witness_RunEndsInThreeWays :
    (good.status = .running ∧ after good 0x1000000000000000000000000000000000 (fun t => t.status = .halted) = true) ∧
      onNext (step { good with ip := 3 }) (fun t => t.status = .halted) = true ∧
      onNext (step { good with ip := 4 }) (fun t => t.status = .faulted .invalidFetch) = true := by decide
theorem test_witness_StepKeepsGoodState : good.Inv ∧ onNext (step good) (fun t => t.regs[1] = 5) = true :=
  ⟨test_good_is_good, by decide⟩
theorem test_witness_StepFromGoodStateAlwaysGoesOn : good.Inv := test_good_is_good
theorem test_witness_CodeRegionNeverChanges :
    good.Inv ∧ onNext (step good) (fun t => t.ip = 1) = true ∧ good.inCode 0 ∧ good.inCode 2 :=
  ⟨test_good_is_good, by decide, by show 0 < good.lowSp.toNat; decide, by show 2 < good.lowSp.toNat; decide⟩
/-- Another code region, the same stack region: the word at 0 is erased. -/
theorem test_witness_InstructionsNeverReadCode :
    good.Inv ∧ (good.mem.writeWord 0 0).wf = true ∧
      (∀ a, good.inStack a → (good.mem.writeWord 0 0).readWord a = good.mem.readWord a) ∧
      onNext (exec (.pop (.reg 3) .none) good) (fun t => t.regs[3] = 7) = true := by
  refine ⟨test_good_is_good, by decide, fun a h => Memory.readWord_writeWord_other (by decide) _ ?_, by decide⟩
  rintro rfl
  exact absurd h.1 (by decide)
theorem test_witness_RunFromGoodStateStaysGood :
    good.Inv ∧ good.inCode 2 ∧ onNext (runToEnd 4 good) (fun t => t.status = .halted && t.ip = 3) = true :=
  ⟨test_good_is_good, by show 2 < good.lowSp.toNat; decide, by decide⟩
/-- The code region of `good`: `MOV eax 5` and two NOOPs. -/
theorem good_code {a : Nat} {i : Instr} (h : good.inCode a) (hd : decode (good.mem.readWord a) = .ok i) :
    i = .mov (.reg 1) (.imm 5) ∨ i = .noop .none .none := by
  have h3 : a < 3 := h
  have e : decode (good.mem.readWord 0) = .ok (.mov (.reg 1) (.imm 5)) ∧
      decode (good.mem.readWord 1) = .ok (.noop .none .none) ∧
      decode (good.mem.readWord 2) = .ok (.noop .none .none) := by decide
  have : a = 0 ∨ a = 1 ∨ a = 2 := by omega
  rcases this with rfl | rfl | rfl
  · exact .inl (Except.ok.inj (hd.symm.trans e.1))
  · exact .inr (Except.ok.inj (hd.symm.trans e.2.1))
  · exact .inr (Except.ok.inj (hd.symm.trans e.2.2))

theorem test_witness_StepKeepsCodeNamingRegisters :
    good.Inv ∧ good.codeNamesRegisters ∧ good.status ≠ .faulted .registerOutOfRange ∧
      onNext (step good) (fun t => t.regs[1] = 5) = true := by
  refine ⟨test_good_is_good, fun a i h hd => ?_, by decide, by decide⟩
  rcases good_code h hd with rfl | rfl <;> decide
/-- `good` with the word 0 replaced by a jump to `LOW_SP`. -/
def jumping : State := { good with mem := good.mem.writeWord 0 0x8C00000000000000030000000000000000 }

theorem jumping_readWord {a : Nat} (h : a ≠ 0) : jumping.mem.readWord a = good.mem.readWord a := by
  rw [jumping, Memory.readWord_writeWord_other test_good_is_good.mem_wf _ h]

theorem jumping_inv : jumping.Inv where
  lowSp_le_capacity := by decide
  capacity_lt := by decide
  lowSp_le_sp := by decide
  sp_le_capacity := by decide
  mem_wf := by decide
  mem_inside := by decide
  stack_upper_zero := by
    intro a h1 h2
    have h3 : 3 ≤ a := h1
    rw [jumping_readWord (by omega)]
    exact test_good_is_good.stack_upper_zero a h1 h2
  flags_exclusive := by decide
  out_signed64 := by decide

theorem jumping_code : jumping.codeJumpsToLabels := by
  intro a i h hd hj
  by_cases h0 : a = 0
  · have e : decode (jumping.mem.readWord 0) = .ok (.jmp (.addr 3) .none) := by decide
    rw [h0, e] at hd
    rw [← Except.ok.inj hd]
    exact ⟨3, rfl, by decide⟩
  · rw [jumping_readWord h0] at hd
    rcases good_code h hd with rfl | rfl <;> cases hj

theorem test_witness_StepKeepsIpWithinLabelledCode :
    jumping.Inv ∧ jumping.codeJumpsToLabels ∧ jumping.ip.toNat ≤ jumping.lowSp.toNat ∧
      jumping.status ≠ .faulted .invalidFetch ∧ onNext (step jumping) (fun t => t.ip = t.lowSp) = true :=
  ⟨jumping_inv, jumping_code, by decide, by decide, by decide⟩
theorem test_witness_AssembledProgramsNeverNameMissingRegisters :
    (∃ s, bootText 4 ["PUSH 9".toList, "POP ebx".toList] = .ok s ∧ onNext (runToEnd 9 s) (fun t => t.regs[4] = 9) = true) :=
  ⟨_, rfl, by decide⟩
theorem test_witness_LabelJumpsNeverLeaveProgram :
    let image : List MemWord := [0x8C00000000000000010000000000000000]
    (∃ s, boot 4 image = .ok s ∧ onNext (runToEnd 9 s) (fun t => t.status = .halted && t.ip = 1) = true) ∧
      decode 0x8C00000000000000010000000000000000 = .ok (.jmp (.addr 1) .none) ∧ (1 : Word).toNat ≤ image.length :=
  ⟨⟨_, rfl, by decide⟩, by decide, by decide⟩
theorem test_witness_ResetTransactionSetsInitialState :
    good.lowSp.toNat ≤ 3 ∧ 2 < good.lowSp.toNat ∧ good.resetTransaction.mem.readWord 3 = 0 ∧
      good.resetTransaction.mem.readWord 0 = 0x2900000000000000010000000000000005 := by decide
theorem test_witness_BootedMachineHoldsItsImage :
    let image : List MemWord := [0, 0x1000000000000000000000000000000000]
    (∃ s, boot 2 image = .ok s) ∧ image.length ≤ (2 : Word).toNat ∧ (2 : Word).toNat < 2 ^ 63 ∧
      boot 1 image = .error .imageTooLong ∧ boot (BitVec.ofNat 64 (2 ^ 63)) image = .error .capacityTooLarge :=
  ⟨⟨_, rfl⟩, by decide, by decide, by decide, by decide⟩
theorem test_witness_BothPassesCountAlike :
    assemble ["NOOP".toList, "l: HALT".toList] = .ok [0, 0x1000000000000000000000000000000000] := by decide
theorem test_witness_LabelsLieWithinProgram :
    ("end".toList, 2) ∈ (resolveLabels ["NOOP".toList, "NOOP".toList, "end:".toList]).1 := by decide
theorem test_witness_LastLabelDefinitionWins :
    let t := "x:".toList
    tokens "x: HALT".toList = t :: ["HALT".toList] ∧ startsComment t = false ∧ isLabelDef t = true ∧
      tokens "y: JMP x".toList = "y:".toList :: ["JMP".toList, "x".toList] ∧ labelName "y:".toList ≠ labelName t ∧
      (resolveLabels ["x: NOOP".toList, "x: HALT".toList, "y: JMP x".toList]).1.lookup "x".toList = some 1 := by decide
theorem test_witness_AssembledImagesAreTame :
    assemble ["l: JMP l".toList] = .ok [0x8C00000000000000000000000000000000] ∧
      assemble ["MOV ebx eax".toList] = .ok [0x2A00000000000000040000000000000001] := by decide
theorem test_witness_UnknownMnemonicPreventsStart :
    let text : List Line := ["MOV eax 5".toList, "FOO eax".toList, "HALT".toList]
    "FOO eax".toList ∈ text ∧ instrTokens (tokens "FOO eax".toList) = "FOO".toList :: ["eax".toList] ∧
      mnemonicTable.lookup "FOO".toList = none := by decide

end Sys2Proof.Tests
end

section
/-! The value field of a None operand (R86), in the decoder and in the encoder. -/

namespace Sys2Proof

/-! ## The operand of a tag and a value field -/

@[simp] theorem operandOf_zero (f : Word) : operandOf 0 f = .none := rfl

/-- R86: an operand depends on its value field only when its tag is not 0. -/
theorem operandOf_congr {tag : BitVec 2} {f f' : Word} (h : tag ≠ 0 → f = f') : operandOf tag f = operandOf tag f' := by
  by_cases ht : tag = 0
  · subst ht
    simp only [operandOf_zero]
  · rw [h ht]

@[simp] theorem Operand.field_none : Operand.none.field = 0 := rfl

/-! ## What the decoder and the encoder do with the field -/

/-- R82: the decoder sees a word only through its opcode field and its two operands. -/
theorem decode_congr {w w' : MemWord} (ho : opcField w = opcField w')
    (ha : operandOf (taField w) (vaField w) = operandOf (taField w') (vaField w'))
    (hb : operandOf (tbField w) (vbField w) = operandOf (tbField w') (vbField w')) : decode w = decode w' := by
  simp only [decode, ho, ha, hb]

/-- R86: the decoder ignores the value fields of None operands. -/
theorem decode_eq_of_used_fields_eq {w w' : MemWord} (ho : opcField w = opcField w') (hta : taField w = taField w')
    (htb : tbField w = tbField w') (hva : taField w ≠ 0 → vaField w = vaField w')
    (hvb : tbField w ≠ 0 → vbField w = vbField w') : decode w = decode w' := by
  apply decode_congr ho
  · rw [← hta]
    exact operandOf_congr hva
  · rw [← htb]
    exact operandOf_congr hvb

/-- R86, R94: the encoder writes 0 in the value field of a None operand in slot a. -/
theorem vaField_encode_of_slotA_none {i : Instr} (h : i.slotA = .none) : vaField (encode i) = 0 := by
  rw [vaField_encode, h, Operand.field_none]

/-- R86, R94: the encoder writes 0 in the value field of a None operand in slot b. -/
theorem vbField_encode_of_slotB_none {i : Instr} (h : i.slotB = .none) : vbField (encode i) = 0 := by
  rw [vbField_encode, h, Operand.field_none]

/-- Settles O4: a None operand forgets its field, the decoder sees only operands, and the encoder's field for None is 0. -/
theorem noneValueFieldIsIgnored : Obligations.NoneValueFieldIsIgnored :=
  ⟨operandOf_zero, fun _ _ => decode_eq_of_used_fields_eq,
    fun _ => ⟨vaField_encode_of_slotA_none, vbField_encode_of_slotB_none⟩⟩

end Sys2Proof
end

section
/-! How operands resolve (R137, R138) and the step's frame around an instruction: the stopped machine (R130), the fetch
check (R131), and what follows the fetch (R135, R136). -/

namespace Sys2Proof.Machine

/-! ## Operands -/

@[simp] theorem dstreg_imm (x : Word) : dstreg (.imm x) = .error .illegalInstruction := rfl
@[simp] theorem dstreg_addr (x : Word) : dstreg (.addr x) = .error .illegalInstruction := rfl
@[simp] theorem dstreg_none : dstreg .none = .error .illegalInstruction := rfl

/-- Settles O7, from the equations of `value` and `dstreg`; both branch on `r.toNat < 16`, so 16 itself is out. -/
theorem operandsResolve : Obligations.OperandsResolve := fun s =>
  ⟨s.value_imm, s.value_addr, fun _ => State.value_reg_of_lt, fun _ h => State.value_reg_of_ge (Nat.not_lt.mpr h),
    s.value_none, fun _ => dstreg_of_lt, fun _ h => dstreg_of_ge (Nat.not_lt.mpr h), dstreg_imm, dstreg_addr, dstreg_none⟩

/-! ## The fetch check -/

theorem State.withFetch_of_eq {s : State} (h : s.ip = s.lowSp) (k : MemWord → Result) :
    s.withFetch k = .next s.halt := if_pos h

theorem State.withFetch_of_gt {s : State} (h : s.lowSp < s.ip) (k : MemWord → Result) :
    s.withFetch k = s.trap .invalidFetch := by
  rw [State.withFetch, if_neg (by bv_omega), if_pos h]

/-- An index that is negative as signed lies above every bound below 2^63. -/
theorem lt_of_toInt_neg {bound x : Word} (hb : bound.toNat < 2 ^ 63) (hx : x.toInt < 0) : bound < x := by
  have hx' : 2 ^ 64 ≤ 2 * x.toNat := BitVec.toInt_neg_iff.mp hx
  rw [BitVec.lt_def]
  omega

/-! ## The step -/

theorem step_of_stopped {s : State} (h : s.status ≠ .running) : step s = .next s := by
  unfold step
  split
  · rfl
  · rfl
  · exact absurd ‹_› h

theorem step_of_ip_eq {s : State} (hs : s.status = .running) (h : s.ip = s.lowSp) : step s = .next s.halt := by
  rw [step, hs]
  exact State.withFetch_of_eq h _

theorem step_of_ip_gt {s : State} (hs : s.status = .running) (h : s.lowSp < s.ip) :
    step s = s.trap .invalidFetch := by
  rw [step, hs]
  exact State.withFetch_of_gt h _

theorem step_of_decode_ok {s : State} {i : Instr} (hs : s.status = .running) (hip : s.ip < s.lowSp)
    (hc : s.ip.toNat < s.capacity.toNat) (hi : decode (s.mem.readWord s.ip.toNat) = .ok i) : step s = exec i s := by
  simp only [step, hs, State.withFetch_of_lt hip hc, hi]

theorem step_of_decode_error {s : State} {r : Reject} (hs : s.status = .running) (hip : s.ip < s.lowSp)
    (hc : s.ip.toNat < s.capacity.toNat) (hr : decode (s.mem.readWord s.ip.toNat) = .error r) :
    step s = s.trap .illegalInstruction := by
  simp only [step, hs, State.withFetch_of_lt hip hc, hr]

/-- Settles O33, from the branches of `step` for the two stopped kinds of status. -/
theorem stoppedMachineStays : Obligations.StoppedMachineStays := fun _ => step_of_stopped

/-- Settles O34: one lemma per outcome of the fetch check; a negative ip is one above `LOW_SP`. -/
theorem fetchCheckOrdersIpAgainstLowSp : Obligations.FetchCheckOrdersIpAgainstLowSp := fun _ hs =>
  ⟨step_of_ip_eq hs, step_of_ip_gt hs, fun hb hneg => step_of_ip_gt hs (lt_of_toInt_neg hb hneg),
    fun hip hc => ⟨fun _ => step_of_decode_ok hs hip hc, fun _ => step_of_decode_error hs hip hc⟩⟩

end Sys2Proof.Machine
end

section
/-! Which words are illegal (R135): what a decoded instruction has from its word, and when an instruction is not legal. -/

namespace Sys2Proof

/-! ## The decoded instruction and its word -/

/-- R81 to R85: opcode and slots of a decoded instruction are the word's fields. -/
theorem decode_ok_fields {w : MemWord} {i : Instr} (h : decode w = .ok i) :
    i.opcode.toNat = (opcField w).toNat ∧ i.slotA = operandOf (taField w) (vaField w) ∧
      i.slotB = operandOf (tbField w) (vbField w) := by
  unfold decode at h
  split at h <;> cases h <;> exact ⟨Eq.symm ‹_›, rfl, rfl⟩

/-- R91: the opcode of an instruction is none of the reserved ones. -/
theorem Instr.opcode_ne_reserved (i : Instr) : i.opcode.toNat ≠ 15 := by
  cases i <;> simp [Instr.opcode]

/-- R91: a word that decodes to no instruction has the reserved opcode. -/
theorem opcField_of_decode_error {w : MemWord} {r : Reject} (h : decode w = .error r) : (opcField w).toNat = 15 := by
  have hlt := (opcField w).isLt
  unfold decode at h
  split at h <;> cases h
  simp only [imp_false] at *
  omega

/-! ## Operand kinds -/

/-- The four kind tags (R84). -/
theorem tag_cases (tag : BitVec 2) : tag = 0 ∨ tag = 1 ∨ tag = 2 ∨ tag = 3 := by
  revert tag
  decide

theorem isRegister_operandOf {tag : BitVec 2} {f : Word} : (operandOf tag f).isRegister = false ↔ tag ≠ 2 := by
  rcases tag_cases tag with rfl | rfl | rfl | rfl <;> simp [operandOf, Operand.isRegister]

theorem hasValue_operandOf {tag : BitVec 2} {f : Word} : (operandOf tag f).hasValue = false ↔ tag = 0 := by
  rcases tag_cases tag with rfl | rfl | rfl | rfl <;> simp [operandOf, Operand.hasValue]

/-- R135's list, over the opcode number and the two slots. -/
theorem Instr.legal_eq_false_iff (i : Instr) :
    i.legal = false ↔
      (i.opcode.toNat ∈ [2, 3, 5] ∧ i.slotA.isRegister = false) ∨
      (i.opcode.toNat ∈ [2, 3, 7] ∧ i.slotB.hasValue = false) ∨
      (i.opcode.toNat ∈ [4, 6, 7, 8, 9, 10, 11, 12, 13, 14] ∧ i.slotA.hasValue = false) := by
  cases i with
  | noop | halt => simp [Instr.legal, Instr.opcode]
  | mov | add =>
    simp only [Instr.legal, Bool.and_eq_false_iff]
    simp [Instr.opcode, Instr.slotA, Instr.slotB]
  | cmp =>
    simp only [Instr.legal, Bool.and_eq_false_iff]
    simp [Instr.opcode, Instr.slotA, Instr.slotB, or_comm]
  | push | pop | int | jmp | je | jne | jl | jle | jg | jge =>
    simp [Instr.legal, Instr.opcode, Instr.slotA]

end Sys2Proof
end

section
/-! When an instruction takes `IllegalInstruction` (R135): exactly when it is not legal. In the one direction a legality
check traps; in the other every way out of its meaning is a next state with another status, or a stop of the model. -/

namespace Sys2Proof.Machine

/-! ## The legality checks, by the operand's kind -/

theorem State.needValue_of_hasValue {s : State} {op : Operand} (h : op.hasValue = true) (k : Result) :
    s.needValue op k = k := State.needValue_of_ne (by rintro rfl; cases h) k

theorem State.needValue_of_not_hasValue {s : State} {op : Operand} (h : op.hasValue = false) (k : Result) :
    s.needValue op k = s.trap .illegalInstruction := by
  cases op with
  | none => rfl
  | imm _ | reg _ | addr _ => cases h

theorem State.needRegister_of_isRegister {s : State} {op : Operand} (h : op.isRegister = true) (k : Result) :
    s.needRegister op k = k := by
  cases op with
  | reg _ => rfl
  | none | imm _ | addr _ => cases h

theorem State.needRegister_of_not_isRegister {s : State} {op : Operand} (h : op.isRegister = false) (k : Result) :
    s.needRegister op k = s.trap .illegalInstruction := by
  cases op with
  | reg _ => cases h
  | none | imm _ | addr _ => rfl

/-- The checks of MOV and ADD. -/
theorem State.needRegister_needValue_of_illegal {dst src : Operand} (s : State)
    (h : (dst.isRegister && src.hasValue) = false) (k : Result) :
    s.needRegister dst (s.needValue src k) = s.trap .illegalInstruction := by
  cases hd : dst.isRegister with
  | false => exact State.needRegister_of_not_isRegister hd _
  | true =>
    rw [hd, Bool.true_and] at h
    rw [State.needRegister_of_isRegister hd, State.needValue_of_not_hasValue h]

/-- The checks of CMP. -/
theorem State.needValue_needValue_of_illegal {a b : Operand} (s : State) (h : (a.hasValue && b.hasValue) = false)
    (k : Result) : s.needValue a (s.needValue b k) = s.trap .illegalInstruction := by
  cases ha : a.hasValue with
  | false => exact State.needValue_of_not_hasValue ha _
  | true =>
    rw [ha, Bool.true_and] at h
    rw [State.needValue_of_hasValue ha, State.needValue_of_not_hasValue h]

/-- R135: an instruction that is not legal takes `IllegalInstruction`, whatever the state. -/
theorem exec_of_not_legal {i : Instr} (s : State) (h : i.legal = false) : exec i s = s.trap .illegalInstruction := by
  cases i with
  | noop | halt => cases h
  | mov | add => exact s.needRegister_needValue_of_illegal h _
  | cmp => exact s.needValue_needValue_of_illegal h _
  | pop => exact State.needRegister_of_not_isRegister h _
  | push | int | jmp | je | jne | jl | jle | jg | jge => exact State.needValue_of_not_hasValue h _

/-! ## The ways out of a meaning that are not `IllegalInstruction` -/

theorem State.trap_ne_trap (s : State) {c d : Cause} (h : c ≠ d) : s.trap c ≠ s.trap d := by
  intro e
  injection e with e
  injection congrArg State.status e with e
  exact h e

theorem State.next_ne_trap {s t : State} {c : Cause} (h : t.status ≠ .faulted c) :
    (.next t : Result) ≠ s.trap c := by
  intro e
  injection e with e
  exact h (e ▸ State.raise_status s c)

theorem State.next_ne_trap_of_running {s t : State} {c : Cause} (ht : t.status = .running) :
    (.next t : Result) ≠ s.trap c :=
  State.next_ne_trap (by rw [ht]; exact Status.noConfusion)

/-- An operand of a value kind resolves, or names a missing register. -/
theorem State.withValue_ne_illegal {s : State} {op : Operand} {k : Word → Result} (h : op.hasValue = true)
    (hk : ∀ v, k v ≠ s.trap .illegalInstruction) : s.withValue op k ≠ s.trap .illegalInstruction := by
  cases op with
  | none => cases h
  | imm v | addr v => exact hk v
  | reg r =>
    by_cases hr : r.toNat < 16
    · rw [State.withValue_of_ok (State.value_reg_of_lt hr)]
      exact hk _
    · rw [State.withValue, State.value_reg_of_ge hr]
      exact s.trap_ne_trap (by decide)

/-- A Register operand names a register, or a missing one. -/
theorem State.withDst_ne_illegal {s : State} {op : Operand} {k : Fin 16 → Result} (h : op.isRegister = true)
    (hk : ∀ d, k d ≠ s.trap .illegalInstruction) : s.withDst op k ≠ s.trap .illegalInstruction := by
  cases op with
  | none | imm _ | addr _ => cases h
  | reg r =>
    by_cases hr : r.toNat < 16
    · rw [State.withDst_of_lt hr]
      exact hk _
    · rw [State.withDst, dstreg_of_ge hr]
      exact s.trap_ne_trap (by decide)

theorem State.withRead_ne_trap {s : State} {a : Nat} {k : MemWord → Result} {c : Cause}
    (hk : ∀ w, k w ≠ s.trap c) : s.withRead a k ≠ s.trap c :=
  fun e => hk _ (State.withRead_next e).2

theorem State.withWrite_ne_trap {s : State} {a : Nat} {w : MemWord} {k : State → Result} {c : Cause}
    (hk : k { s with mem := s.mem.writeWord a w } ≠ s.trap c) : s.withWrite a w k ≠ s.trap c :=
  fun e => hk (State.withWrite_next e).2

/-! ## A legal instruction -/

/-- MOV and ADD: a destination and a value are resolved, and the machine runs on. -/
theorem State.assign_ne_illegal {s : State} {dst src : Operand} {f : Fin 16 → Word → State}
    (hd : dst.isRegister = true) (hv : src.hasValue = true) (hf : ∀ d v, (f d v).status = .running) :
    (s.needRegister dst <| s.needValue src <| s.withDst dst fun d => s.withValue src fun v => .next (f d v)) ≠
      s.trap .illegalInstruction := by
  rw [State.needRegister_of_isRegister hd, State.needValue_of_hasValue hv]
  exact State.withDst_ne_illegal hd fun _ => State.withValue_ne_illegal hv fun _ =>
    State.next_ne_trap_of_running (hf _ _)

section
variable {s : State} (hs : s.status = .running)
include hs

theorem execMov_ne_illegal {dst src : Operand} (hd : dst.isRegister = true) (hv : src.hasValue = true) :
    execMov dst src s ≠ s.trap .illegalInstruction :=
  State.assign_ne_illegal hd hv fun _ _ => by simp [hs]

theorem execAdd_ne_illegal {dst src : Operand} (hd : dst.isRegister = true) (hv : src.hasValue = true) :
    execAdd dst src s ≠ s.trap .illegalInstruction :=
  State.assign_ne_illegal hd hv fun _ _ => by simp [hs]

theorem execPush_ne_illegal {src : Operand} (hv : src.hasValue = true) :
    execPush src s ≠ s.trap .illegalInstruction := by
  rw [execPush, State.needValue_of_hasValue hv]
  split
  · exact s.trap_ne_trap (by decide)
  · exact State.withValue_ne_illegal hv fun _ => State.withWrite_ne_trap (State.next_ne_trap_of_running (by simp [hs]))

theorem execPop_ne_illegal {dst : Operand} (hd : dst.isRegister = true) :
    execPop dst s ≠ s.trap .illegalInstruction := by
  rw [execPop, State.needRegister_of_isRegister hd]
  split
  · exact s.trap_ne_trap (by decide)
  · exact State.withDst_ne_illegal hd fun _ => State.withRead_ne_trap fun _ => State.next_ne_trap_of_running (by simp [hs])

theorem State.printCell_ne_illegal : s.printCell ≠ s.trap .illegalInstruction := by
  unfold State.printCell
  split
  · exact s.trap_ne_trap (by decide)
  · exact State.withRead_ne_trap fun _ => State.next_ne_trap_of_running (by simp [hs])

theorem execInt_ne_illegal {n : Operand} (hv : n.hasValue = true) : execInt n s ≠ s.trap .illegalInstruction := by
  rw [execInt, State.needValue_of_hasValue hv]
  refine State.withValue_ne_illegal hv fun code => ?_
  split
  · exact State.printCell_ne_illegal hs
  · exact State.next_ne_trap_of_running (by simp [hs])

theorem execCmp_ne_illegal {a b : Operand} (ha : a.hasValue = true) (hb : b.hasValue = true) :
    execCmp a b s ≠ s.trap .illegalInstruction := by
  rw [execCmp, State.needValue_of_hasValue ha, State.needValue_of_hasValue hb]
  exact State.withValue_ne_illegal ha fun _ => State.withValue_ne_illegal hb fun _ =>
    State.next_ne_trap_of_running (by simp [hs])

theorem State.jumpIf_ne_illegal {taken : Bool} {target : Operand} (hv : target.hasValue = true) :
    s.jumpIf taken target ≠ s.trap .illegalInstruction := by
  rw [State.jumpIf, State.needValue_of_hasValue hv]
  exact State.withValue_ne_illegal hv fun _ => State.next_ne_trap_of_running (by simp [hs])

/-- R135: a legal instruction of a running machine never takes `IllegalInstruction`. -/
theorem exec_ne_illegal_of_legal {i : Instr} (h : i.legal = true) : exec i s ≠ s.trap .illegalInstruction := by
  cases i with
  | noop => exact State.next_ne_trap_of_running (by simp [hs])
  | halt => exact State.next_ne_trap (Status.noConfusion)
  | mov =>
    obtain ⟨hd, hv⟩ := Bool.and_eq_true_iff.mp h
    exact execMov_ne_illegal hs hd hv
  | add =>
    obtain ⟨hd, hv⟩ := Bool.and_eq_true_iff.mp h
    exact execAdd_ne_illegal hs hd hv
  | push => exact execPush_ne_illegal hs h
  | pop => exact execPop_ne_illegal hs h
  | int => exact execInt_ne_illegal hs h
  | cmp =>
    obtain ⟨ha, hb⟩ := Bool.and_eq_true_iff.mp h
    exact execCmp_ne_illegal hs ha hb
  | jmp | je | jne | jl | jle | jg | jge => exact State.jumpIf_ne_illegal hs h

theorem exec_eq_illegal_iff {i : Instr} : exec i s = s.trap .illegalInstruction ↔ i.legal = false :=
  ⟨fun e => Bool.eq_false_iff.mpr fun h => exec_ne_illegal_of_legal hs h e, exec_of_not_legal s⟩

end

/-- Settles O29: a word that does not decode has the reserved opcode; one that decodes is illegal exactly when its
instruction is not legal, and R135 lists those forms by the word's fields. -/
theorem illegalWordsAreExactlyTheListed : Obligations.IllegalWordsAreExactlyTheListed := by
  intro s hs hip hc w opc ta tb
  cases hw : decode w with
  | error r => exact iff_of_true (step_of_decode_error hs hip hc hw) (.inl (opcField_of_decode_error hw))
  | ok i =>
    obtain ⟨hopc, ha, hb⟩ := decode_ok_fields hw
    have hne : opc ≠ 15 := fun e => i.opcode_ne_reserved (hopc.trans e)
    rw [step_of_decode_ok hs hip hc hw, or_iff_right hne]
    refine (exec_eq_illegal_iff hs).trans ?_
    rw [i.legal_eq_false_iff, hopc, ha, hb, isRegister_operandOf, hasValue_operandOf, hasValue_operandOf]
    rfl

end Sys2Proof.Machine
end

section
/-! HALT (R151, R152): its equation, and the whole next state. -/

namespace Sys2Proof.Machine

/-- R89, R151: HALT does not look at its slots, and it cannot fault. -/
theorem exec_halt (a b : Operand) (s : State) : exec (.halt a b) s = .next s.halt.advance := rfl

/-- The two operations of HALT write the status and ip, each from the given state. -/
theorem State.advance_halt (s : State) : s.halt.advance = { s with status := .halted, ip := s.ip + 1 } := rfl

/-- Settles O10, from HALT's equation and the state its two operations compose to. -/
theorem haltStopsAndAdvances : Obligations.HaltStopsAndAdvances := by
  intro a b s
  rw [exec_halt, State.advance_halt]

end Sys2Proof.Machine
end

section
/-! INT (R175, R178): its meaning by the outcome of its operand, and the codes other than 4. -/

namespace Sys2Proof.Machine

/-- An operand that does not resolve: the fault is the one `value` names (R137). -/
theorem State.withValue_of_error {s : State} {op : Operand} {c : Cause} (h : s.value op = .error c)
    (k : Word → Result) : s.withValue op k = s.trap c := by rw [State.withValue, h]

/-- R89: INT does not look at slot b. -/
theorem exec_int (n b : Operand) (s : State) : exec (.int n b) s = execInt n s := rfl

/-- R175: once its operand has resolved, INT goes on with the code alone. -/
theorem execInt_of_ok {s : State} {n : Operand} {v : Word} (h : s.value n = .ok v) :
    execInt n s = if v = 4 then s.printCell else .next s.advance := by
  rw [execInt, State.needValue_of_ok h, State.withValue_of_ok h]

/-- R178: the handler does nothing for a code other than 4. -/
theorem execInt_of_ne_four {s : State} {n : Operand} {v : Word} (h : s.value n = .ok v) (hv : v ≠ 4) :
    execInt n s = .next s.advance := by
  rw [execInt_of_ok h, if_neg hv]

/-- R178: the operand is resolved before any code is looked at, so a missing register faults. -/
theorem execInt_of_missing_register {s : State} {r : Word} (h : ¬r.toNat < 16) :
    execInt (.reg r) s = s.trap .registerOutOfRange := by
  rw [execInt, State.needValue_of_hasValue rfl, State.withValue_of_error (State.value_reg_of_ge h)]

/-- Settles O15, by the two outcomes of resolving the operand: a code that is not 4, or a missing register. -/
theorem unrecognisedInterruptDoesNothing : Obligations.UnrecognisedInterruptDoesNothing := by
  intro s b
  constructor
  case left =>
    intro n v hn hv
    rw [exec_int, execInt_of_ne_four hn hv]
    rfl
  case right =>
    intro r hr
    rw [exec_int, execInt_of_missing_register (Nat.not_lt.mpr hr)]
    rfl

end Sys2Proof.Machine
end

section
/-! CMP (R185, R186): its meaning by the values of its operands, and its independence of the old flags. -/

namespace Sys2Proof.Machine

/-! ## The comparison of two values -/

/-- R186: the old flags are lost, since the comparison assigns both. -/
theorem State.compare_overwrites_flags (s : State) (z c : Bool) (va vb : Word) :
    State.compare { s with zf := z, cf := c } va vb = s.compare va vb := rfl

/-! ## The meaning of CMP -/

theorem exec_cmp (a b : Operand) (s : State) : exec (.cmp a b) s = execCmp a b s := rfl

/-- R185: once both operands have resolved, CMP compares their values and cannot fault. -/
theorem execCmp_of_ok {s : State} {a b : Operand} {va vb : Word} (ha : s.value a = .ok va) (hb : s.value b = .ok vb) :
    execCmp a b s = .next (s.compare va vb).advance := by
  rw [execCmp, State.needValue_of_ok ha, State.needValue_of_ok hb, State.withValue_of_ok ha, State.withValue_of_ok hb]

/-- R137: no operand resolves to a flag. -/
theorem State.value_of_flags (s : State) (z c : Bool) (op : Operand) :
    State.value { s with zf := z, cf := c } op = s.value op := State.value_congr rfl op

/-- R186: CMP from any old flags has the one result that the values compared give. -/
theorem exec_cmp_of_flags {s : State} {a b : Operand} {va vb : Word} (ha : s.value a = .ok va)
    (hb : s.value b = .ok vb) (z c : Bool) :
    exec (.cmp a b) { s with zf := z, cf := c } = .next (s.compare va vb).advance := by
  have ha' := (s.value_of_flags z c a).trans ha
  have hb' := (s.value_of_flags z c b).trans hb
  rw [exec_cmp, execCmp_of_ok ha' hb', State.compare_overwrites_flags]

/-- Settles O18: from any two pairs of old flags CMP has the same result, whose flags are the zero test and the sign of
the exact difference. -/
theorem cmpForgetsOldFlags : Obligations.CmpForgetsOldFlags := by
  intro s a b va vb ha hb z c z' c'
  have hresult := exec_cmp_of_flags ha hb
  constructor
  case left => rw [hresult z c, hresult z' c']
  case right =>
    refine ⟨(s.compare va vb).advance, hresult z c, ?zf, ?cf⟩
    case zf => rw [State.advance_zf, State.compare_zf, difference]
    case cf => rw [State.advance_cf, State.compare_cf, difference]

end Sys2Proof.Machine
end

section
/-! The conditional jumps (46_jumps.md): what `jumpIf` does with each kind of target (R191, R199), when each condition
holds (R192), and the six instructions. -/

namespace Sys2Proof.Machine

/-! ## The conditions, by the flags (R192) -/

theorem State.condE_iff (s : State) : s.condE = true ↔ s.zf = true := Iff.rfl

theorem State.condNE_iff (s : State) : s.condNE = true ↔ s.zf = false := by
  simp [State.condNE, State.getFlag]

theorem State.condL_iff (s : State) : s.condL = true ↔ s.zf = false ∧ s.cf = true := by
  simp [State.condL, State.getFlag]

/-- R192 gives JLE as the source does, `ZF || (!ZF && CF)`; the second test of ZF is idle. -/
theorem State.condLE_iff (s : State) : s.condLE = true ↔ s.zf = true ∨ s.cf = true := by
  cases hz : s.zf <;> simp [State.condLE, State.getFlag, hz]

theorem State.condG_iff (s : State) : s.condG = true ↔ s.zf = false ∧ s.cf = false := by
  simp [State.condG, State.getFlag]

/-- As for JLE, the second test of ZF is idle. -/
theorem State.condGE_iff (s : State) : s.condGE = true ↔ s.zf = true ∨ s.cf = false := by
  cases hz : s.zf <;> simp [State.condGE, State.getFlag, hz]

/-! ## A jump, by the outcome of its target -/

/-- R140: either way a jump's end writes ip alone. -/
theorem State.branch_eq (s : State) (taken : Bool) (v : Word) :
    s.branch taken v = { s with ip := if taken then v else s.ip + 1 } := by
  cases taken <;> rfl

/-- R191: once its target has resolved, a jump cannot fault. -/
theorem State.jumpIf_of_ok {s : State} {target : Operand} {v : Word} (h : s.value target = .ok v) (taken : Bool) :
    s.jumpIf taken target = .next { s with ip := if taken then v else s.ip + 1 } := by
  rw [State.jumpIf, State.needValue_of_ok h, State.withValue_of_ok h, State.branch_eq]

/-- R199: the target is checked before the condition is looked at. -/
theorem State.jumpIf_none (s : State) (taken : Bool) : s.jumpIf taken .none = s.trap .illegalInstruction := rfl

/-- R199: the register a target names is checked before the condition is looked at, too. -/
theorem State.jumpIf_of_missing_register {s : State} {r : Word} (h : ¬r.toNat < 16) (taken : Bool) :
    s.jumpIf taken (.reg r) = s.trap .registerOutOfRange := by
  rw [State.jumpIf, State.needValue_of_hasValue rfl, State.withValue_of_error (State.value_reg_of_ge h)]

/-- A jump that has a target goes to it or to the next instruction. -/
theorem State.jumpIf_target_or_next {s : State} {target : Operand} {v : Word} (h : s.value target = .ok v)
    (taken : Bool) :
    s.jumpIf taken target = .next { s with ip := v } ∨ s.jumpIf taken target = .next { s with ip := s.ip + 1 } := by
  rw [State.jumpIf_of_ok h]
  cases taken with
  | true => exact .inl rfl
  | false => exact .inr rfl

/-! ## The six instructions (R193 to R198) -/

theorem exec_je (target b : Operand) (s : State) : exec (.je target b) s = s.jumpIf s.condE target := rfl
theorem exec_jne (target b : Operand) (s : State) : exec (.jne target b) s = s.jumpIf s.condNE target := rfl
theorem exec_jl (target b : Operand) (s : State) : exec (.jl target b) s = s.jumpIf s.condL target := rfl
theorem exec_jle (target b : Operand) (s : State) : exec (.jle target b) s = s.jumpIf s.condLE target := rfl
theorem exec_jg (target b : Operand) (s : State) : exec (.jg target b) s = s.jumpIf s.condG target := rfl
theorem exec_jge (target b : Operand) (s : State) : exec (.jge target b) s = s.jumpIf s.condGE target := rfl

/-- Settles O20: a jump whose target resolves goes by its condition, and each condition is read off the flags. -/
theorem conditionalJumpsFollowFlags : Obligations.ConditionalJumpsFollowFlags := by
  intro s target b v hv
  have hjump := State.jumpIf_of_ok hv
  refine ⟨?je, ?jne, ?jl, ?jle, ?jg, ?jge⟩
  case je => simp only [exec_je, hjump, State.condE_iff]
  case jne => simp only [exec_jne, hjump, State.condNE_iff]
  case jl => simp only [exec_jl, hjump, State.condL_iff]
  case jle => simp only [exec_jle, hjump, State.condLE_iff]
  case jg => simp only [exec_jg, hjump, State.condG_iff]
  case jge => simp only [exec_jge, hjump, State.condGE_iff]

/-- Each conditional jump is `jumpIf` on a condition of the state, which neither slot has a say in. -/
theorem exec_conditionalJump {j : Operand → Operand → Instr}
    (hj : j ∈ [Instr.je, Instr.jne, Instr.jl, Instr.jle, Instr.jg, Instr.jge]) :
    ∃ cond : State → Bool, ∀ target b s, exec (j target b) s = s.jumpIf (cond s) target := by
  simp only [List.mem_cons, List.not_mem_nil, or_false] at hj
  obtain rfl | rfl | rfl | rfl | rfl | rfl := hj
  · exact ⟨State.condE, exec_je⟩
  · exact ⟨State.condNE, exec_jne⟩
  · exact ⟨State.condL, exec_jl⟩
  · exact ⟨State.condLE, exec_jle⟩
  · exact ⟨State.condG, exec_jg⟩
  · exact ⟨State.condGE, exec_jge⟩

/-- Settles O28: all six share `jumpIf`, which checks its target the same way whatever the condition is. -/
theorem untakenJumpStillChecksTarget : Obligations.UntakenJumpStillChecksTarget := by
  intro s b j hj
  obtain ⟨cond, hexec⟩ := exec_conditionalJump hj
  simp only [hexec]
  refine ⟨?none, ?missing, ?register⟩
  case none => exact s.jumpIf_none _
  case missing => exact fun r hr => State.jumpIf_of_missing_register (Nat.not_lt.mpr hr) _
  case register => exact fun r hr => State.jumpIf_target_or_next (State.value_reg_of_lt hr) _

end Sys2Proof.Machine
end

section
/-! How an operand resolves, by its kind and by whether its register exists (R88, R137, R138). -/

namespace Sys2Proof

/-- R89: None is the only kind without a value. -/
theorem Operand.hasValue_of_ne_none {op : Operand} (h : op ≠ .none) : op.hasValue = true := by
  cases op with
  | none => exact absurd rfl h
  | imm _ | reg _ | addr _ => rfl

end Sys2Proof

namespace Sys2Proof.Machine

/-- R137: a value operand whose register exists resolves. -/
theorem State.exists_value {op : Operand} (s : State) (hv : op.hasValue = true) (hr : op.indexInRange = true) :
    ∃ v, s.value op = .ok v := by
  cases op with
  | none => cases hv
  | imm v | addr v => exact ⟨v, rfl⟩
  | reg r => exact ⟨_, State.value_reg_of_lt (of_decide_eq_true hr)⟩

theorem State.value_of_missing_register {op : Operand} (s : State) (hr : op.indexInRange = false) :
    s.value op = .error .registerOutOfRange := by
  cases op with
  | reg r => exact State.value_reg_of_ge (of_decide_eq_false hr)
  | none | imm _ | addr _ => cases hr

/-- R138: a Register operand whose register exists is a destination. -/
theorem exists_dstreg {op : Operand} (hd : op.isRegister = true) (hr : op.indexInRange = true) :
    ∃ d, dstreg op = .ok d := by
  cases op with
  | reg r => exact ⟨_, dstreg_of_lt (of_decide_eq_true hr)⟩
  | none | imm _ | addr _ => cases hd

theorem dstreg_of_missing_register {op : Operand} (hr : op.indexInRange = false) :
    dstreg op = .error .registerOutOfRange := by
  cases op with
  | reg r => exact dstreg_of_ge (of_decide_eq_false hr)
  | none | imm _ | addr _ => cases hr

theorem State.withDst_of_ok {s : State} {op : Operand} {d : Fin 16} (h : dstreg op = .ok d) (k : Fin 16 → Result) :
    s.withDst op k = k d := by rw [State.withDst, h]

theorem State.withDst_of_error {s : State} {op : Operand} {c : Cause} (h : dstreg op = .error c)
    (k : Fin 16 → Result) : s.withDst op k = s.trap c := by rw [State.withDst, h]

/-- A missing register of a slot that needs a value. -/
theorem State.needValue_withValue_of_missing_register {op : Operand} (s : State) (hv : op.hasValue = true)
    (hr : op.indexInRange = false) (k : Word → Result) :
    s.needValue op (s.withValue op k) = s.trap .registerOutOfRange := by
  rw [State.needValue_of_hasValue hv, State.withValue_of_error (s.value_of_missing_register hr)]

end Sys2Proof.Machine
end

section
/-! PUSH and POP (R165, R166) at the ends of the stack (R213, R214) and away from them, by the outcome of
their operand. -/

namespace Sys2Proof.Machine

/-! ## PUSH -/

theorem exec_push (src b : Operand) (s : State) : exec (.push src b) s = execPush src s := rfl

theorem execPush_of_full {s : State} {src : Operand} (hv : src.hasValue = true) (h : s.sp = s.capacity) :
    execPush src s = s.trap .stackOverflow := by
  rw [execPush, State.needValue_of_hasValue hv, if_pos h]

/-- R232: the stack is looked at before the register. -/
theorem execPush_of_missing_register {s : State} {src : Operand} (hv : src.hasValue = true) (h : s.sp ≠ s.capacity)
    (hr : src.indexInRange = false) : execPush src s = s.trap .registerOutOfRange := by
  rw [execPush, State.needValue_of_hasValue hv, if_neg h, State.withValue_of_error (s.value_of_missing_register hr)]

theorem execPush_of_room {s : State} {src : Operand} {v : Word} (hv : s.value src = .ok v)
    (h : s.sp.toNat < s.capacity.toNat) :
    execPush src s =
      .next (State.setSp { s with mem := s.mem.writeWord s.sp.toNat (cellOf v) } (s.sp + 1)).advance := by
  have hne : s.sp ≠ s.capacity := fun e => Nat.ne_of_lt h (congrArg BitVec.toNat e)
  rw [execPush, State.needValue_of_ok hv, if_neg hne, State.withValue_of_ok hv, State.withWrite_of_lt h]

/-- Settles O26: the operand's kind is checked before the stack, and its register after. -/
theorem pushOnFullStackOverflows : Obligations.PushOnFullStackOverflows := by
  intro s src b hfull
  constructor
  case left =>
    intro hsrc
    rw [exec_push, execPush_of_full (Operand.hasValue_of_ne_none hsrc) hfull]
    rfl
  case right => exact exec_of_not_legal s rfl

/-! ## POP -/

theorem exec_pop (dst b : Operand) (s : State) : exec (.pop dst b) s = execPop dst s := rfl

theorem execPop_of_empty {s : State} {dst : Operand} (hd : dst.isRegister = true) (h : s.sp = s.lowSp) :
    execPop dst s = s.trap .stackUnderflow := by
  rw [execPop, State.needRegister_of_isRegister hd, if_pos h]

/-- R232: the stack is looked at before the register. -/
theorem execPop_of_missing_register {s : State} {dst : Operand} (hd : dst.isRegister = true) (h : s.sp ≠ s.lowSp)
    (hr : dst.indexInRange = false) : execPop dst s = s.trap .registerOutOfRange := by
  rw [execPop, State.needRegister_of_isRegister hd, if_neg h, State.withDst_of_error (dstreg_of_missing_register hr)]

theorem execPop_of_nonempty {s : State} {dst : Operand} {d : Fin 16} (hk : dst.isRegister = true)
    (hd : dstreg dst = .ok d) (h : s.sp ≠ s.lowSp) (hc : (s.sp - 1).toNat < s.capacity.toNat) :
    execPop dst s =
      .next ((s.setSp (s.sp - 1)).writeReg d (datumOf (s.mem.readWord (s.sp - 1).toNat))).advance := by
  rw [execPop, State.needRegister_of_isRegister hk, if_neg h, State.withDst_of_ok hd, State.withRead_of_lt hc]

/-- Settles O27: the operand's kind is checked before the stack, and its register after. -/
theorem popOnEmptyStackUnderflows : Obligations.PopOnEmptyStackUnderflows := by
  intro s b hempty
  constructor
  case left =>
    intro r
    rw [exec_pop, execPop_of_empty rfl hempty]
    rfl
  case right => exact fun dst hdst => exec_of_not_legal s hdst

end Sys2Proof.Machine
end

section
/-! A fault changes the status alone (R216): an instruction that goes on without one leaves the status, or halts. -/

namespace Sys2Proof.Machine

/-- Besides taking a fault, the only thing an instruction does to the status is HALT's (R151). -/
theorem exec_next_status {i : Instr} {s t : State} (h : exec i s = .next t) :
    (∃ c, t = s.raise c) ∨ t.status = s.status ∨ t.status = .halted := by
  cases i with
  | noop =>
    rw [execNoop_next h]
    exact .inr (.inl s.advance_status)
  | halt =>
    rw [execHalt_next h]
    exact .inr (.inr s.halt_status)
  | mov =>
    refine (execMov_next h).imp_right ?_
    rintro ⟨d, v, -, -, rfl⟩
    exact .inl (by simp)
  | add =>
    refine (execAdd_next h).imp_right ?_
    rintro ⟨d, v, -, -, rfl⟩
    exact .inl (by simp)
  | push =>
    refine (execPush_next h).imp_right ?_
    rintro ⟨v, -, -, rfl⟩
    exact .inl (by simp)
  | pop =>
    refine (execPop_next h).imp_right ?_
    rintro ⟨d, -, -, -, rfl⟩
    exact .inl (by simp)
  | int =>
    refine (execInt_next h).imp_right ?_
    rintro (⟨v, -, -, rfl⟩ | ⟨-, -, rfl⟩)
    · exact .inl (by simp)
    · exact .inl (by simp)
  | cmp =>
    refine (execCmp_next h).imp_right ?_
    rintro ⟨va, vb, -, -, rfl⟩
    exact .inl (by simp)
  | jmp | je | jne | jl | jle | jg | jge =>
    refine (State.jumpIf_next h).imp_right ?_
    rintro ⟨v, -, rfl⟩
    exact .inl (by simp)

/-- A step of a running machine that ends faulted has taken a fault, in the fetch or in the instruction. -/
theorem step_next_faulted {s t : State} {c : Cause} (hs : s.status = .running) (h : step s = .next t)
    (ht : t.status = .faulted c) : ∃ d, t = s.raise d := by
  rcases step_next h with ⟨hstop, -⟩ | ⟨-, -, rfl⟩ | ⟨-, hraise⟩ | ⟨-, -, -, i, -, hexec⟩
  · exact absurd hs hstop
  · rw [State.halt_status] at ht
    cases ht
  · exact hraise
  · rcases exec_next_status hexec with hraise | hkeep | hhalt
    · exact hraise
    · rw [hkeep, hs] at ht
      cases ht
    · rw [hhalt] at ht
      cases ht

/-- Settles O31: the step has raised some cause, and the status it leaves tells which. -/
theorem faultChangesStatusAlone : Obligations.FaultChangesStatusAlone := by
  intro s t c hs h ht
  obtain ⟨d, rfl⟩ := step_next_faulted hs h ht
  rw [State.raise_status] at ht
  cases ht
  rfl

end Sys2Proof.Machine
end

section
/-! The priority of the faults (R232): one lemma per line of the order, for all instructions, and the completion of an
instruction that meets no fault. -/

namespace Sys2Proof

/-- R83: HALT is the instruction of opcode 1. -/
theorem Instr.eq_halt_of_opcode {i : Instr} (h : i.opcode = 1) : ∃ a b, i = .halt a b := by
  cases i with
  | halt a b => exact ⟨a, b, rfl⟩
  | noop | mov | add | push | pop | int | cmp | jmp | je | jne | jl | jle | jg | jge => simp [Instr.opcode] at h

end Sys2Proof

namespace Sys2Proof.Machine

/-! ## MOV, ADD and CMP, by the outcome of their operands -/

/-- MOV and ADD: a destination and a value that resolve. -/
theorem State.assign_of_ok {s : State} {dst src : Operand} {d : Fin 16} {v : Word} (hk : dst.isRegister = true)
    (hd : dstreg dst = .ok d) (hv : s.value src = .ok v) (k : Fin 16 → Word → Result) :
    (s.needRegister dst <| s.needValue src <| s.withDst dst fun d => s.withValue src fun v => k d v) = k d v := by
  rw [State.needRegister_of_isRegister hk, State.needValue_of_ok hv, State.withDst_of_ok hd, State.withValue_of_ok hv]

/-- MOV and ADD: one of the two registers is missing, it does not matter which (R156). -/
theorem State.assign_of_missing_register {s : State} {dst src : Operand} (hd : dst.isRegister = true)
    (hv : src.hasValue = true) (hr : (dst.indexInRange && src.indexInRange) = false) (k : Fin 16 → Word → Result) :
    (s.needRegister dst <| s.needValue src <| s.withDst dst fun d => s.withValue src fun v => k d v) =
      s.trap .registerOutOfRange := by
  rw [State.needRegister_of_isRegister hd, State.needValue_of_hasValue hv]
  cases hdr : dst.indexInRange with
  | false => exact State.withDst_of_error (dstreg_of_missing_register hdr) _
  | true =>
    rw [hdr, Bool.true_and] at hr
    obtain ⟨d, hd⟩ := exists_dstreg hd hdr
    rw [State.withDst_of_ok hd, State.withValue_of_error (s.value_of_missing_register hr)]

theorem execCmp_of_missing_register {s : State} {a b : Operand} (ha : a.hasValue = true) (hb : b.hasValue = true)
    (hr : (a.indexInRange && b.indexInRange) = false) : execCmp a b s = s.trap .registerOutOfRange := by
  rw [execCmp, State.needValue_of_hasValue ha, State.needValue_of_hasValue hb]
  cases har : a.indexInRange with
  | false => exact State.withValue_of_error (s.value_of_missing_register har) _
  | true =>
    rw [har, Bool.true_and] at hr
    obtain ⟨va, hva⟩ := s.exists_value ha har
    rw [State.withValue_of_ok hva, State.withValue_of_error (s.value_of_missing_register hr)]

/-! ## INT 4, by the place of its cell (R176) -/

theorem State.printCell_of_outside {s : State} (h : s.cellOutside) : s.printCell = s.trap .memoryOutOfRange := if_pos h

theorem State.printIndex_lt {s : State} (h : ¬s.cellOutside) : s.printIndex.toNat < s.capacity.toNat := by
  have hindex := s.printIndex_eq
  obtain ⟨hlow, hhigh⟩ := not_or.mp h
  omega

theorem State.printCell_of_inside {s : State} (h : ¬s.cellOutside) :
    s.printCell = .next (s.emit (datumOf (s.mem.readWord s.printIndex.toNat)).toInt).advance :=
  (if_neg h).trans (State.withRead_of_lt (State.printIndex_lt h) _)

/-! ## `State.firstFault`, by its lines -/

/-- The four ways to have a first fault, with what the lines before it have ruled out. -/
theorem State.firstFault_some {s : State} {i : Instr} {c : Cause} (h : s.firstFault i = some c) :
    (i.legal = false ∧ c = .illegalInstruction) ∨
    (i.legal = true ∧ s.stackStop i = some c) ∨
    (i.legal = true ∧ s.stackStop i = none ∧ i.registersExist = false ∧ c = .registerOutOfRange) ∨
    (s.prints i = true ∧ s.cellOutside ∧ c = .memoryOutOfRange) := by
  unfold State.firstFault at h
  split_ifs at h with hl hstop hr hp
  · exact .inl ⟨hl, (Option.some.inj h).symm⟩
  · exact .inr (.inl ⟨Bool.eq_true_of_not_eq_false hl, h⟩)
  · exact .inr (.inr (.inl
      ⟨Bool.eq_true_of_not_eq_false hl, Option.not_isSome_iff_eq_none.mp hstop, hr, (Option.some.inj h).symm⟩))
  · obtain ⟨hprints, hcell⟩ := hp
    exact .inr (.inr (.inr ⟨hprints, hcell, (Option.some.inj h).symm⟩))

/-- No first fault: no line of the order applies. -/
theorem State.firstFault_none {s : State} {i : Instr} (h : s.firstFault i = none) :
    i.legal = true ∧ s.stackStop i = none ∧ i.registersExist = true ∧ (s.prints i = true → ¬s.cellOutside) := by
  unfold State.firstFault at h
  split_ifs at h with hl hstop hr hp
  · rw [h] at hstop
    cases hstop
  · exact ⟨Bool.eq_true_of_not_eq_false hl, Option.not_isSome_iff_eq_none.mp hstop, Bool.eq_true_of_not_eq_false hr,
      not_and.mp hp⟩

theorem State.stackStop_push_some {s : State} {src b : Operand} {c : Cause} :
    s.stackStop (.push src b) = some c ↔ s.sp = s.capacity ∧ c = .stackOverflow := by
  simp [State.stackStop, eq_comm]

theorem State.stackStop_push_none {s : State} {src b : Operand} :
    s.stackStop (.push src b) = none ↔ s.sp ≠ s.capacity := by
  simp [State.stackStop]

theorem State.stackStop_pop_some {s : State} {dst b : Operand} {c : Cause} :
    s.stackStop (.pop dst b) = some c ↔ s.sp = s.lowSp ∧ c = .stackUnderflow := by
  simp [State.stackStop, eq_comm]

theorem State.stackStop_pop_none {s : State} {dst b : Operand} :
    s.stackStop (.pop dst b) = none ↔ s.sp ≠ s.lowSp := by
  simp [State.stackStop]

/-! ## The order, line by line -/

/-- R232, second line: only PUSH and POP look at the stack. -/
theorem exec_of_stackStop {i : Instr} {s : State} {c : Cause} (hl : i.legal = true) (h : s.stackStop i = some c) :
    exec i s = s.trap c := by
  cases i with
  | push =>
    obtain ⟨hfull, rfl⟩ := State.stackStop_push_some.mp h
    exact execPush_of_full hl hfull
  | pop =>
    obtain ⟨hempty, rfl⟩ := State.stackStop_pop_some.mp h
    exact execPop_of_empty hl hempty
  | noop | halt | mov | add | int | cmp | jmp | je | jne | jl | jle | jg | jge => cases h

/-- R232, third line: a used register is missing, and the stack is not at its end. -/
theorem exec_of_missing_register {i : Instr} {s : State} (hl : i.legal = true) (hs : s.stackStop i = none)
    (hr : i.registersExist = false) : exec i s = s.trap .registerOutOfRange := by
  cases i with
  | noop | halt => cases hr
  | mov | add =>
    obtain ⟨hd, hv⟩ := Bool.and_eq_true_iff.mp hl
    exact State.assign_of_missing_register hd hv hr _
  | push => exact execPush_of_missing_register hl (State.stackStop_push_none.mp hs) hr
  | pop => exact execPop_of_missing_register hl (State.stackStop_pop_none.mp hs) hr
  | cmp =>
    obtain ⟨ha, hb⟩ := Bool.and_eq_true_iff.mp hl
    exact execCmp_of_missing_register ha hb hr
  | int | jmp | je | jne | jl | jle | jg | jge => exact s.needValue_withValue_of_missing_register hl hr _

/-- R232, last line: only INT prints. -/
theorem exec_of_print_outside {i : Instr} {s : State} (h : s.prints i = true) (ho : s.cellOutside) :
    exec i s = s.trap .memoryOutOfRange := by
  cases i with
  | int =>
    rw [exec_int, execInt_of_ok (State.resolvesTo_iff.mp h), if_pos rfl, State.printCell_of_outside ho]
  | noop | halt | mov | add | push | pop | cmp | jmp | je | jne | jl | jle | jg | jge => cases h

/-- R232: an instruction takes its first fault. -/
theorem exec_of_firstFault {i : Instr} {s : State} {c : Cause} (h : s.firstFault i = some c) : exec i s = s.trap c := by
  rcases State.firstFault_some h with ⟨hl, rfl⟩ | ⟨hl, hstack⟩ | ⟨hl, hstack, hr, rfl⟩ | ⟨hprints, hcell, rfl⟩
  · exact exec_of_not_legal s hl
  · exact exec_of_stackStop hl hstack
  · exact exec_of_missing_register hl hstack hr
  · exact exec_of_print_outside hprints hcell

/-! ## Completion -/

/-- In a good state a stack that is not full has room. -/
theorem State.Inv.sp_lt_capacity {s : State} (hi : s.Inv) (h : s.sp ≠ s.capacity) :
    s.sp.toNat < s.capacity.toNat :=
  Nat.lt_of_le_of_ne hi.sp_le_capacity fun e => h (BitVec.eq_of_toNat_eq e)

/-- In a good state a stack that is not empty has a top cell. -/
theorem State.Inv.top_lt_capacity {s : State} (hi : s.Inv) (h : s.sp ≠ s.lowSp) :
    (s.sp - 1).toNat < s.capacity.toNat := by
  have hlow := hi.lowSp_le_sp
  have hcap := hi.sp_le_capacity
  bv_omega

/-- The instruction went on: the machine still runs. -/
def StillRuns (r : Result) : Prop := ∃ t, r = .next t ∧ t.status = .running

section
variable {s : State} (hs : s.status = .running)
include hs

theorem State.assign_stillRuns {dst src : Operand} {f : Fin 16 → Word → State}
    (hl : (dst.isRegister && src.hasValue) = true) (hr : (dst.indexInRange && src.indexInRange) = true)
    (hf : ∀ d v, (f d v).status = s.status) :
    StillRuns
      (s.needRegister dst <| s.needValue src <| s.withDst dst fun d => s.withValue src fun v => .next (f d v)) := by
  obtain ⟨hdk, hvk⟩ := Bool.and_eq_true_iff.mp hl
  obtain ⟨hdr, hvr⟩ := Bool.and_eq_true_iff.mp hr
  obtain ⟨d, hd⟩ := exists_dstreg hdk hdr
  obtain ⟨v, hv⟩ := s.exists_value hvk hvr
  exact ⟨f d v, State.assign_of_ok hdk hd hv _, (hf d v).trans hs⟩

theorem execPush_stillRuns {src : Operand} (hi : s.Inv) (hl : src.hasValue = true) (hr : src.indexInRange = true)
    (h : s.sp ≠ s.capacity) : StillRuns (execPush src s) := by
  obtain ⟨v, hv⟩ := s.exists_value hl hr
  exact ⟨_, execPush_of_room hv (hi.sp_lt_capacity h), by simp [hs]⟩

theorem execPop_stillRuns {dst : Operand} (hi : s.Inv) (hl : dst.isRegister = true) (hr : dst.indexInRange = true)
    (h : s.sp ≠ s.lowSp) : StillRuns (execPop dst s) := by
  obtain ⟨d, hd⟩ := exists_dstreg hl hr
  exact ⟨_, execPop_of_nonempty hl hd h (hi.top_lt_capacity h), by simp [hs]⟩

theorem execInt_stillRuns {n : Operand} (hl : n.hasValue = true) (hr : n.indexInRange = true)
    (h : s.resolvesTo n 4 = true → ¬s.cellOutside) : StillRuns (execInt n s) := by
  obtain ⟨v, hv⟩ := s.exists_value hl hr
  rw [execInt_of_ok hv]
  split
  · subst v
    exact ⟨_, State.printCell_of_inside (h (State.resolvesTo_iff.mpr hv)), by simp [hs]⟩
  · exact ⟨_, rfl, by simp [hs]⟩

theorem execCmp_stillRuns {a b : Operand} (hl : (a.hasValue && b.hasValue) = true)
    (hr : (a.indexInRange && b.indexInRange) = true) : StillRuns (execCmp a b s) := by
  obtain ⟨hak, hbk⟩ := Bool.and_eq_true_iff.mp hl
  obtain ⟨har, hbr⟩ := Bool.and_eq_true_iff.mp hr
  obtain ⟨va, hva⟩ := s.exists_value hak har
  obtain ⟨vb, hvb⟩ := s.exists_value hbk hbr
  exact ⟨_, execCmp_of_ok hva hvb, by simp [hs]⟩

theorem State.jumpIf_stillRuns {taken : Bool} {target : Operand} (hl : target.hasValue = true)
    (hr : target.indexInRange = true) : StillRuns (s.jumpIf taken target) := by
  obtain ⟨v, hv⟩ := s.exists_value hl hr
  exact ⟨_, State.jumpIf_of_ok hv taken, hs⟩

/-- R210, R141: an instruction other than HALT that meets no fault leaves the machine running. -/
theorem exec_stillRuns {i : Instr} (hi : s.Inv) (hne : i.opcode ≠ 1) (h : s.firstFault i = none) :
    StillRuns (exec i s) := by
  obtain ⟨hl, hstack, hr, hprint⟩ := State.firstFault_none h
  cases i with
  | noop => exact ⟨_, rfl, hs⟩
  | halt => exact absurd rfl hne
  | mov | add => exact State.assign_stillRuns hs hl hr fun _ _ => by simp
  | push => exact execPush_stillRuns hs hi hl hr (State.stackStop_push_none.mp hstack)
  | pop => exact execPop_stillRuns hs hi hl hr (State.stackStop_pop_none.mp hstack)
  | int => exact execInt_stillRuns hs hl hr hprint
  | cmp => exact execCmp_stillRuns hs hl hr
  | jmp | je | jne | jl | jle | jg | jge => exact State.jumpIf_stillRuns hs hl hr

end

/-- Settles O30: the fetch's fault comes before any instruction; an instruction takes the first fault line by line; and
one that meets none is HALT, or leaves the machine running. -/
theorem firstFaultInOrderIsReported : Obligations.FirstFaultInOrderIsReported := by
  refine ⟨fun s => step_of_ip_gt, fun s i hi hs => ⟨fun c => exec_of_firstFault, fun h => ?_⟩⟩
  by_cases hopc : i.opcode = 1
  · obtain ⟨a, b, rfl⟩ := Instr.eq_halt_of_opcode hopc
    exact ⟨s.halt.advance, exec_halt a b s, .inr ⟨s.halt_status, rfl⟩⟩
  · obtain ⟨t, ht, hrun⟩ := exec_stillRuns hs hi hopc h
    exact ⟨t, ht, .inl hrun⟩

end Sys2Proof.Machine
end

section
/-! The reset transaction (R250): one lemma per field it sets or leaves, and what its memory reads as. -/

namespace Sys2Proof.Machine

/-! ## The words of a memory whose cells from a word on were dropped -/

/-- The words below `n` read as before when the cells from word `n` on are dropped. -/
theorem Memory.readWord_filter_of_lt (m : Memory) {n a : Nat} (h : a < n) :
    Memory.readWord (m.filter fun c => c.1 < wordBytes * n) a = m.readWord a := by
  refine Memory.readWord_congr fun j hj => ?_
  have hlt : wordBytes * a + j < wordBytes * n := by simp only [wordBytes]; omega
  rw [Memory.readByte_filter_below, if_pos hlt]

/-- The words from `n` on read as 0 when the cells from word `n` on are dropped. -/
theorem Memory.readWord_filter_of_ge (m : Memory) {n a : Nat} (h : n ≤ a) :
    Memory.readWord (m.filter fun c => c.1 < wordBytes * n) a = 0 := by
  refine Memory.readWord_unlisted fun j _ => ?_
  have hge : ¬wordBytes * a + j < wordBytes * n := by simp only [wordBytes]; omega
  rw [Memory.readByte_filter_below, if_neg hge]

/-! ## `State.resetTransaction` -/

@[simp] theorem State.resetTransaction_regs (s : State) : s.resetTransaction.regs = Vector.replicate 16 0 := rfl
@[simp] theorem State.resetTransaction_zf (s : State) : s.resetTransaction.zf = false := rfl
@[simp] theorem State.resetTransaction_cf (s : State) : s.resetTransaction.cf = false := rfl
@[simp] theorem State.resetTransaction_ip (s : State) : s.resetTransaction.ip = 0 := rfl
@[simp] theorem State.resetTransaction_sp (s : State) : s.resetTransaction.sp = s.lowSp := rfl
@[simp] theorem State.resetTransaction_status (s : State) : s.resetTransaction.status = .running := rfl
@[simp] theorem State.resetTransaction_lowSp (s : State) : s.resetTransaction.lowSp = s.lowSp := rfl
@[simp] theorem State.resetTransaction_capacity (s : State) : s.resetTransaction.capacity = s.capacity := rfl
@[simp] theorem State.resetTransaction_out (s : State) : s.resetTransaction.out = [] := rfl

/-- R250: reset leaves the code region as the load set it. -/
theorem State.readWord_resetTransaction_code (s : State) {a : Nat} (h : a < s.lowSp.toNat) :
    s.resetTransaction.mem.readWord a = s.mem.readWord a :=
  Memory.readWord_filter_of_lt s.mem h

/-- R250: reset clears the stack region. -/
theorem State.readWord_resetTransaction_stack (s : State) {a : Nat} (h : s.lowSp.toNat ≤ a) :
    s.resetTransaction.mem.readWord a = 0 :=
  Memory.readWord_filter_of_ge s.mem h

/-- Settles O49: the fields are those the reset sets or leaves; a word keeps its bytes below `LOW_SP` and has none listed
from there on. -/
theorem resetTransactionSetsInitialState : Obligations.ResetTransactionSetsInitialState := by
  intro s
  have hregs : ∀ r : Fin 16, s.resetTransaction.regs[r.val] = 0 := fun r => by simp
  exact ⟨hregs, s.resetTransaction_zf, s.resetTransaction_cf, s.resetTransaction_ip, s.resetTransaction_sp,
    s.resetTransaction_status, fun _ => s.readWord_resetTransaction_stack, s.resetTransaction_out,
    fun _ => s.readWord_resetTransaction_code, s.resetTransaction_lowSp, s.resetTransaction_capacity⟩

end Sys2Proof.Machine
end

section
/-! The round trips between words and instructions (R81 to R94): a word is its five fields, decoding reads them, and
encoding writes them. -/

namespace Sys2Proof

/-! ## A word and its fields -/

/-- R81: the five fields cover the word. -/
theorem word_ext {w w' : MemWord} (ho : opcField w = opcField w') (hta : taField w = taField w')
    (htb : tbField w = tbField w') (hva : vaField w = vaField w') (hvb : vbField w = vbField w') : w = w' := by
  have split_word : ∀ x : MemWord, x = opcField x ++ taField x ++ tbField x ++ vaField x ++ vbField x := by
    intro x
    simp only [opcField, taField, tbField, vaField, vbField, BitVec.extractLsb'_append_extractLsb'_eq_extractLsb']
    simp
  rw [split_word w, split_word w', ho, hta, htb, hva, hvb]

/-- R84: the kind tag of an operand is the one it was made from. -/
@[simp] theorem tag_operandOf (tag : BitVec 2) (f : Word) : (operandOf tag f).tag = tag := by
  rcases tag_cases tag with rfl | rfl | rfl | rfl <;> rfl

/-- R86: the value field of an operand is the one it was made from, unless None has forgotten it. -/
theorem field_operandOf {tag : BitVec 2} {f : Word} (h : tag = 0 → f = 0) : (operandOf tag f).field = f := by
  rcases tag_cases tag with rfl | rfl | rfl | rfl
  · exact (h rfl).symm
  · rfl
  · rfl
  · rfl

/-- R86: an operand with the tag of None is None. -/
theorem Operand.field_of_tag_zero {o : Operand} (h : o.tag = 0) : o.field = 0 := by
  cases o with
  | none => rfl
  | imm _ | reg _ | addr _ => simp [Operand.tag] at h

/-! ## Decoding by the fields -/

/-- R82, R83: decoding a word with an instruction's opcode and slots gives the instruction. -/
theorem decode_of_fields {w : MemWord} {i : Instr} (ho : opcField w = i.opcode)
    (ha : operandOf (taField w) (vaField w) = i.slotA) (hb : operandOf (tbField w) (vbField w) = i.slotB) :
    decode w = .ok i := by
  simp only [decode, ho, ha, hb]
  cases i with
  | noop | halt | mov | add | push | pop | int | cmp | jmp | je | jne | jl | jle | jg | jge => rfl

/-- R91: the opcode 15 selects no instruction. -/
theorem decode_of_reserved {w : MemWord} (ho : opcField w = 15) : decode w = .error .reservedOpcode := by
  simp only [decode, ho]
  rfl

/-- R94: the fields of an instruction's word are its opcode and its slots' tags and values. -/
@[simp] theorem decode_encode (i : Instr) : decode (encode i) = .ok i :=
  decode_of_fields (opcField_encode i) (by simp) (by simp)

/-- R86, R94: no field of a decoded word is lost, if None operands have value field 0. -/
theorem encode_of_decode_ok {w : MemWord} {i : Instr} (h : decode w = .ok i) (ha : taField w = 0 → vaField w = 0)
    (hb : tbField w = 0 → vbField w = 0) : encode i = w := by
  obtain ⟨hopc, hslotA, hslotB⟩ := decode_ok_fields h
  apply word_ext
  · rw [opcField_encode]
    exact BitVec.eq_of_toNat_eq hopc
  · rw [taField_encode, hslotA, tag_operandOf]
  · rw [tbField_encode, hslotB, tag_operandOf]
  · rw [vaField_encode, hslotA, field_operandOf ha]
  · rw [vbField_encode, hslotB, field_operandOf hb]

/-! ## The statements -/

/-- Settles O1, from the packing of the fields and their reading back; the ten examples are evaluated. -/
theorem encodeFollowsFormulaAndDecodesBack : Obligations.EncodeFollowsFormulaAndDecodesBack := by
  refine ⟨fun i => ⟨encode_packed i, ?slotA, ?slotB, decode_encode i⟩, by decide⟩
  case slotA => exact fun h => h ▸ Operand.field_none
  case slotB => exact fun h => h ▸ Operand.field_none

/-- Settles O2: each opcode by the instruction whose opcode and slots are the word's fields. -/
theorem opcodeFieldSelectsInstruction : Obligations.OpcodeFieldSelectsInstruction := by
  refine ⟨fun _ => ⟨rfl, rfl, rfl, rfl⟩, fun w => ?_⟩
  have select : ∀ i : Instr, operandOf (taField w) (vaField w) = i.slotA → operandOf (tbField w) (vbField w) = i.slotB →
      opcField w = i.opcode → decode w = .ok i := fun i ha hb ho => decode_of_fields ho ha hb
  exact ⟨select (.noop _ _) rfl rfl, select (.halt _ _) rfl rfl, select (.mov _ _) rfl rfl,
    select (.add _ _) rfl rfl, select (.push _ _) rfl rfl, select (.pop _ _) rfl rfl, select (.int _ _) rfl rfl,
    select (.cmp _ _) rfl rfl, select (.jmp _ _) rfl rfl, select (.je _ _) rfl rfl, select (.jne _ _) rfl rfl,
    select (.jl _ _) rfl rfl, select (.jle _ _) rfl rfl, select (.jg _ _) rfl rfl, select (.jge _ _) rfl rfl,
    decode_of_reserved⟩

/-- Settles O3: the word of the decoded instruction has the fields of the word decoded. -/
theorem decodedWordEncodesBack : Obligations.DecodedWordEncodesBack := fun _ _ => encode_of_decode_ok

/-- Settles O5, by evaluating the decoder on the twelve words. -/
theorem tableWordsDecode : Obligations.TableWordsDecode := by
  unfold Obligations.TableWordsDecode
  decide

end Sys2Proof
end

section
/-! The byte form of a stored image (R61): where the bytes of word `k` stand, and reading them back. -/

namespace Sys2Proof.Machine

@[simp] theorem length_bytesOfWord (w : MemWord) : (bytesOfWord w).length = wordBytes := by
  simp [bytesOfWord]

theorem getD_bytesOfWord (w : MemWord) {j : Nat} (h : j < wordBytes) : (bytesOfWord w).getD j 0 = byteOfWord w j := by
  simp [bytesOfWord, List.getD, h]

@[simp] theorem imageBytes_cons (w : MemWord) (image : List MemWord) :
    imageBytes (w :: image) = bytesOfWord w ++ imageBytes image := rfl

theorem length_imageBytes (image : List MemWord) : (imageBytes image).length = wordBytes * image.length := by
  induction image with
  | nil => rfl
  | cons w image ih => rw [imageBytes_cons, List.length_append, length_bytesOfWord, ih, List.length_cons]; ring

/-- Byte `j` of word `k` stands at `17 * k + j`. -/
theorem getD_imageBytes {image : List MemWord} {k j : Nat} (hk : k < image.length) (hj : j < wordBytes) :
    (imageBytes image).getD (wordBytes * k + j) 0 = byteOfWord image[k] j := by
  induction image generalizing k with
  | nil => exact absurd hk (Nat.not_lt_zero k)
  | cons w image ih =>
    rw [imageBytes_cons]
    cases k with
    | zero =>
      rw [Nat.mul_zero, Nat.zero_add, List.getD_append _ _ _ _ (by rwa [length_bytesOfWord])]
      exact getD_bytesOfWord w hj
    | succ k =>
      have hpos : wordBytes * (k + 1) + j = (bytesOfWord w).length + (wordBytes * k + j) := by
        rw [length_bytesOfWord]; ring
      rw [hpos, List.getD_append_right _ _ _ _ (Nat.le_add_right _ _), Nat.add_sub_cancel_left]
      exact ih (Nat.lt_of_succ_lt_succ hk)

/-- The word made of the bytes at `17 * k` is word `k` of the image. -/
theorem wordOfBytes_imageBytes {image : List MemWord} {k : Nat} (hk : k < image.length) :
    (wordOfBytes fun j => (imageBytes image).getD (wordBytes * k + j) 0) = image[k] := by
  rw [wordOfBytes_congr fun j hj => getD_imageBytes hk hj, wordOfBytes_byteOfWord]

theorem imageOfBytes_imageBytes (image : List MemWord) : imageOfBytes (imageBytes image) = some image := by
  have hmod : (imageBytes image).length % wordBytes = 0 := by rw [length_imageBytes, Nat.mul_mod_right]
  have hdiv : (imageBytes image).length / wordBytes = image.length := by
    rw [length_imageBytes, Nat.mul_div_cancel_left _ (by decide)]
  rw [imageOfBytes, if_pos hmod, hdiv, Option.some_inj]
  apply List.ext_getElem
  · simp
  · intro k _ hk
    rw [List.getElem_map, List.getElem_range, wordOfBytes_imageBytes hk]

/-- Settles O6: the stored bytes give each word back; the example's bytes are evaluated. -/
theorem storedImageReadsBack : Obligations.StoredImageReadsBack := ⟨imageOfBytes_imageBytes, by decide⟩

end Sys2Proof.Machine
end

section
/-! What an instruction can do, once for all fifteen: `Effect` lists the next states, and `exec_effect` says that there
are no others. The frames, the invariant and the course of ip are read off this list. -/

namespace Sys2Proof.Machine

/-- The state a completed PUSH of `v` leaves (R165). -/
def State.pushed (s : State) (v : Word) : State :=
  (State.setSp { s with mem := s.mem.writeWord s.sp.toNat (cellOf v) } (s.sp + 1)).advance

/-- The state a completed POP into `d` leaves (R166). -/
def State.popped (s : State) (d : Fin 16) : State :=
  ((s.setSp (s.sp - 1)).writeReg d (datumOf (s.mem.readWord (s.sp - 1).toNat))).advance

/-- The state a completed INT 4 leaves (R176). -/
def State.printed (s : State) : State :=
  (s.emit (datumOf (s.mem.readWord s.printIndex.toNat)).toInt).advance

/-- The next states an instruction can answer: it takes a fault, or has the effect its own rule names. -/
inductive Effect (s : State) : Instr → State → Prop
  | fault {i : Instr} (c : Cause) : Effect s i (s.raise c)
  | noop (a b : Operand) : Effect s (.noop a b) s.advance
  | halt (a b : Operand) : Effect s (.halt a b) s.halt.advance
  | mov (dst src : Operand) (d : Fin 16) (v : Word) : Effect s (.mov dst src) (s.writeReg d v).advance
  | add (dst src : Operand) (d : Fin 16) (v : Word) : Effect s (.add dst src) (s.writeReg d v).advance
  | push (src b : Operand) (v : Word) (room : s.sp.toNat < s.capacity.toNat) : Effect s (.push src b) (s.pushed v)
  | pop (dst b : Operand) (d : Fin 16) (nonempty : s.sp ≠ s.lowSp) : Effect s (.pop dst b) (s.popped d)
  | ignore (n b : Operand) : Effect s (.int n b) s.advance
  | print (n b : Operand) : Effect s (.int n b) s.printed
  | cmp (a b : Operand) (va vb : Word) : Effect s (.cmp a b) (s.compare va vb).advance
  | jump {i : Instr} (isJump : i.isJump = true) (taken : Bool) (v : Word) (target : s.value i.slotA = .ok v) :
    Effect s i (s.branch taken v)

/-- A fault, or a next state of which the instruction's own effect is known. -/
theorem Effect.of_raise_or {s t : State} {i : Instr} {p : Prop} (h : (∃ c, t = s.raise c) ∨ p)
    (completed : p → Effect s i t) : Effect s i t := by
  rcases h with ⟨c, rfl⟩ | h
  · exact .fault c
  · exact completed h

theorem exec_effect {i : Instr} {s t : State} (h : exec i s = .next t) : Effect s i t := by
  cases i with
  | noop a b => exact execNoop_next h ▸ .noop a b
  | halt a b => exact execHalt_next h ▸ .halt a b
  | mov dst src =>
    refine Effect.of_raise_or (execMov_next h) ?_
    rintro ⟨d, v, -, -, rfl⟩
    exact .mov dst src d v
  | add dst src =>
    refine Effect.of_raise_or (execAdd_next h) ?_
    rintro ⟨d, v, -, -, rfl⟩
    exact .add dst src d _
  | push src b =>
    refine Effect.of_raise_or (execPush_next h) ?_
    rintro ⟨v, -, room, rfl⟩
    exact .push src b v room
  | pop dst b =>
    refine Effect.of_raise_or (execPop_next h) ?_
    rintro ⟨d, -, nonempty, -, rfl⟩
    exact .pop dst b d nonempty
  | int n b =>
    refine Effect.of_raise_or (execInt_next h) ?_
    rintro (⟨v, -, -, rfl⟩ | ⟨-, -, rfl⟩)
    · exact .ignore n b
    · exact .print n b
  | cmp a b =>
    refine Effect.of_raise_or (execCmp_next h) ?_
    rintro ⟨va, vb, -, -, rfl⟩
    exact .cmp a b va vb
  | jmp | je | jne | jl | jle | jg | jge =>
    refine Effect.of_raise_or (State.jumpIf_next h) ?_
    rintro ⟨v, hv, rfl⟩
    exact .jump rfl _ v hv

/-! ## The fields that PUSH and POP change, and the ones their preconditions name -/

@[simp] theorem State.pushed_sp (s : State) (v : Word) : (s.pushed v).sp = s.sp + 1 := rfl
@[simp] theorem State.pushed_lowSp (s : State) (v : Word) : (s.pushed v).lowSp = s.lowSp := rfl
@[simp] theorem State.pushed_capacity (s : State) (v : Word) : (s.pushed v).capacity = s.capacity := rfl
@[simp] theorem State.pushed_mem (s : State) (v : Word) :
    (s.pushed v).mem = s.mem.writeWord s.sp.toNat (cellOf v) := by
  rw [State.pushed, State.advance_mem, State.setSp_mem]

@[simp] theorem State.popped_regs (s : State) (d : Fin 16) :
    (s.popped d).regs = s.regs.set d (datumOf (s.mem.readWord (s.sp - 1).toNat)) := rfl
@[simp] theorem State.popped_sp (s : State) (d : Fin 16) : (s.popped d).sp = s.sp - 1 := rfl
@[simp] theorem State.popped_mem (s : State) (d : Fin 16) : (s.popped d).mem = s.mem := rfl

/-! ## What follows for every instruction -/

section
variable {s t : State} {i : Instr} (h : Effect s i t)
include h

/-- R37: no instruction writes `LOW_SP`. -/
theorem Effect.lowSp_eq : t.lowSp = s.lowSp := by
  cases h with
  | jump => exact State.branch_lowSp ..
  | _ => rfl

/-- R37: no instruction writes `CAPACITY`. -/
theorem Effect.capacity_eq : t.capacity = s.capacity := by
  cases h with
  | jump => exact State.branch_capacity ..
  | _ => rfl

/-- R57: the one word an instruction can change is the word at sp, and PUSH is the one that can. -/
theorem Effect.mem_eq : t.mem = s.mem ∨ i.opcode = 4 ∧ ∃ v, t.mem = s.mem.writeWord s.sp.toNat (cellOf v) := by
  cases h with
  | push _ _ v => exact .inr ⟨rfl, v, State.pushed_mem s v⟩
  | jump => exact .inl (State.branch_mem ..)
  | _ => exact .inl rfl

/-- R24: only MOV, ADD and POP write a general register. -/
theorem Effect.regs_eq (hi : i.opcode ≠ 2 ∧ i.opcode ≠ 3 ∧ i.opcode ≠ 5) : t.regs = s.regs := by
  obtain ⟨hmov, hadd, hpop⟩ := hi
  cases h with
  | mov => exact absurd rfl hmov
  | add => exact absurd rfl hadd
  | pop => exact absurd rfl hpop
  | jump => exact State.branch_regs ..
  | _ => rfl

/-- R28: only CMP writes the flags. -/
theorem Effect.flags_eq (hi : i.opcode ≠ 7) : t.zf = s.zf ∧ t.cf = s.cf := by
  cases h with
  | cmp => exact absurd rfl hi
  | jump => exact ⟨State.branch_zf .., State.branch_cf ..⟩
  | _ => exact ⟨rfl, rfl⟩

/-- R34: only PUSH and POP write sp. -/
theorem Effect.sp_eq (hi : i.opcode ≠ 4 ∧ i.opcode ≠ 5) : t.sp = s.sp := by
  obtain ⟨hpush, hpop⟩ := hi
  cases h with
  | push => exact absurd rfl hpush
  | pop => exact absurd rfl hpop
  | jump => exact State.branch_sp ..
  | _ => rfl

/-- R40: only INT writes the output. -/
theorem Effect.out_eq (hi : i.opcode ≠ 6) : t.out = s.out := by
  cases h with
  | print => exact absurd rfl hi
  | jump => exact State.branch_out ..
  | _ => rfl

/-- R36: an instruction stops the machine by a fault, or is HALT. -/
theorem Effect.status_cases :
    (∃ c, t = s.raise c) ∨ t.status = s.status ∨ ∃ a b, i = .halt a b ∧ t = s.halt.advance := by
  cases h with
  | fault c => exact .inl ⟨c, rfl⟩
  | halt a b => exact .inr (.inr ⟨a, b, rfl, rfl⟩)
  | jump => exact .inr (.inl (State.branch_status ..))
  | _ => exact .inr (.inl rfl)

/-- R140: without a fault an instruction ends with the trailing increment, or it is a jump and ends at its target. -/
theorem Effect.ip_cases :
    (∃ c, t = s.raise c) ∨ t.ip = s.ip + 1 ∨ i.isJump = true ∧ s.value i.slotA = .ok t.ip := by
  cases h with
  | fault c => exact .inl ⟨c, rfl⟩
  | jump isJump taken v target =>
    cases taken with
    | true => exact .inr (.inr ⟨isJump, target⟩)
    | false => exact .inr (.inl rfl)
  | _ => exact .inr (.inl rfl)

end

/-- Settles O24, part by part, from what `Effect` says of each. -/
theorem onlyNamedInstructionsWriteEachPart : Obligations.OnlyNamedInstructionsWriteEachPart := by
  intro i s t h
  have heff := exec_effect h
  refine ⟨heff.regs_eq, heff.flags_eq, heff.sp_eq, fun hi n => ?_, heff.out_eq, heff.lowSp_eq, heff.capacity_eq⟩
  obtain hmem | ⟨hpush, -⟩ := heff.mem_eq
  · rw [hmem]
  · exact absurd hpush hi

end Sys2Proof.Machine
end

section
/-! The good state (R29, R35, R53, R71): every step keeps it (`State.Inv.step`), and every step from it goes on. -/

namespace Sys2Proof.Machine

/-! ## What keeps a state good -/

/-- A good state's properties are about seven fields. -/
theorem State.Inv.congr {s t : State} (h : s.Inv) (hlow : t.lowSp = s.lowSp) (hcap : t.capacity = s.capacity)
    (hsp : t.sp = s.sp) (hmem : t.mem = s.mem) (hzf : t.zf = s.zf) (hcf : t.cf = s.cf) (hout : t.out = s.out) :
    t.Inv where
  lowSp_le_capacity := by rw [hlow, hcap]; exact h.lowSp_le_capacity
  capacity_lt := by rw [hcap]; exact h.capacity_lt
  lowSp_le_sp := by rw [hlow, hsp]; exact h.lowSp_le_sp
  sp_le_capacity := by rw [hsp, hcap]; exact h.sp_le_capacity
  mem_wf := by rw [hmem]; exact h.mem_wf
  mem_inside := by rw [hmem, hcap]; exact h.mem_inside
  stack_upper_zero := by rw [hlow, hcap, hmem]; exact h.stack_upper_zero
  flags_exclusive := by rw [hzf, hcf]; exact h.flags_exclusive
  out_signed64 := by rw [hout]; exact h.out_signed64

section
variable {s : State} (h : s.Inv)
include h

theorem State.Inv.raise (c : Cause) : (s.raise c).Inv := h.congr rfl rfl rfl rfl rfl rfl rfl
theorem State.Inv.advance : s.advance.Inv := h.congr rfl rfl rfl rfl rfl rfl rfl
theorem State.Inv.halt : s.halt.Inv := h.congr rfl rfl rfl rfl rfl rfl rfl
theorem State.Inv.writeReg (d : Fin 16) (v : Word) : (s.writeReg d v).Inv := h.congr rfl rfl rfl rfl rfl rfl rfl
theorem State.Inv.branch (taken : Bool) (v : Word) : (s.branch taken v).Inv :=
  h.congr (State.branch_lowSp ..) (State.branch_capacity ..) (State.branch_sp ..) (State.branch_mem ..)
    (State.branch_zf ..) (State.branch_cf ..) (State.branch_out ..)

/-- R29: equal and less exclude each other. -/
theorem State.Inv.compare (va vb : Word) : (s.compare va vb).Inv where
  __ := h
  flags_exclusive := by
    simp only [State.compare_zf, State.compare_cf, decide_eq_true_eq]
    omega

/-- R40: a 64-bit pattern read as signed. -/
theorem State.Inv.emit (v : Word) : (s.emit v.toInt).Inv where
  __ := h
  out_signed64 := by
    intro x hx
    rw [State.emit_out, List.mem_append, List.mem_singleton] at hx
    obtain hx | rfl := hx
    · exact h.out_signed64 x hx
    · exact ⟨BitVec.le_toInt v, BitVec.toInt_lt⟩

/-- R35: sp moves within the stack region. -/
theorem State.Inv.setSp {p : Word} (hlow : s.lowSp.toNat ≤ p.toNat) (hcap : p.toNat ≤ s.capacity.toNat) :
    (s.setSp p).Inv where
  __ := h
  lowSp_le_sp := hlow
  sp_le_capacity := hcap

/-- R39, R71: another memory in canonical form, inside `CAPACITY`, with zeros above its data. -/
theorem State.Inv.setMem {m : Memory} (hwf : m.wf = true) (hinside : ∀ c ∈ m, c.1 < wordBytes * s.capacity.toNat)
    (hupper : ∀ a, s.lowSp.toNat ≤ a → a < s.capacity.toNat → (m.readWord a).extractLsb' 64 72 = 0) :
    State.Inv { s with mem := m } where
  __ := h
  mem_wf := hwf
  mem_inside := hinside
  stack_upper_zero := hupper

/-- R71: a datum written to a word of the memory has zeros above it. -/
theorem State.Inv.writeCell {a : Nat} (ha : a < s.capacity.toNat) (v : Word) :
    State.Inv { s with mem := s.mem.writeWord a (cellOf v) } := by
  refine h.setMem (Memory.wf_writeWord h.mem_wf a _) (fun c hc => ?inside) fun q hlow hcap => ?upper
  case inside =>
    rcases Memory.mem_writeWord h.mem_wf hc with hold | ⟨-, hnew⟩
    · exact h.mem_inside c hold
    · simp only [wordBytes] at *; omega
  case upper =>
    by_cases hq : q = a
    · subst hq
      rw [Memory.readWord_writeWord_same h.mem_wf, cellOf_upper]
    · rw [Memory.readWord_writeWord_other h.mem_wf _ hq]
      exact h.stack_upper_zero q hlow hcap

/-- R165: sp is below `CAPACITY`, so it can move up by one. -/
theorem State.Inv.pushed (room : s.sp.toNat < s.capacity.toNat) (v : Word) : (s.pushed v).Inv := by
  have hlow := h.lowSp_le_sp
  have hnext : (s.sp + 1).toNat = s.sp.toNat + 1 := by bv_omega
  refine ((h.writeCell room v).setSp ?_ ?_).advance
  · show s.lowSp.toNat ≤ (s.sp + 1).toNat; omega
  · show (s.sp + 1).toNat ≤ s.capacity.toNat; omega

/-- R166: sp is above `LOW_SP`, so it can move down by one. -/
theorem State.Inv.popped (nonempty : s.sp ≠ s.lowSp) (d : Fin 16) : (s.popped d).Inv := by
  have hlow := h.lowSp_le_sp
  have hcap := h.sp_le_capacity
  exact ((h.setSp (p := s.sp - 1) (by bv_omega) (by bv_omega)).writeReg d _).advance

/-- No instruction leaves a bad state. -/
theorem Effect.inv {i : Instr} {t : State} (heff : Effect s i t) : t.Inv := by
  cases heff with
  | fault c => exact h.raise c
  | noop | ignore => exact h.advance
  | halt => exact h.halt.advance
  | mov _ _ d v | add _ _ d v => exact (h.writeReg d v).advance
  | push _ _ v room => exact h.pushed room v
  | pop _ _ d nonempty => exact h.popped nonempty d
  | print => exact (h.emit _).advance
  | cmp _ _ va vb => exact (h.compare va vb).advance
  | jump _ taken v => exact h.branch taken v

end

/-- Settles O39: a step changes nothing, halts, faults, or runs an instruction, and each keeps the state good. -/
theorem stepKeepsGoodState : Obligations.StepKeepsGoodState := by
  intro s t hi h
  rcases step_next h with ⟨-, rfl⟩ | ⟨-, -, rfl⟩ | ⟨-, c, rfl⟩ | ⟨-, -, -, i, -, hexec⟩
  · exact hi
  · exact hi.halt
  · exact hi.raise c
  · exact Effect.inv hi (exec_effect hexec)

/-! ## The code region -/

/-- R56, R57: an instruction writes the word at sp at most, and sp is not in the code region. -/
theorem Effect.readWord_code {s t : State} {i : Instr} (heff : Effect s i t) (hi : s.Inv) {a : Nat} (ha : s.inCode a) :
    t.mem.readWord a = s.mem.readWord a := by
  obtain hmem | ⟨-, v, hmem⟩ := heff.mem_eq
  · rw [hmem]
  · have hne : a ≠ s.sp.toNat := Nat.ne_of_lt (Nat.lt_of_lt_of_le ha hi.lowSp_le_sp)
    rw [hmem, Memory.readWord_writeWord_other hi.mem_wf _ hne]

/-- Settles O42: only an instruction could write a word, and it does not write one of the code region. -/
theorem codeRegionNeverChanges : Obligations.CodeRegionNeverChanges := by
  intro s t hi h
  rcases step_next h with ⟨-, rfl⟩ | ⟨-, -, rfl⟩ | ⟨-, c, rfl⟩ | ⟨-, -, -, i, -, hexec⟩
  · exact ⟨rfl, rfl, fun _ _ => rfl⟩
  · exact ⟨rfl, rfl, fun _ _ => rfl⟩
  · exact ⟨rfl, rfl, fun _ _ => rfl⟩
  · have heff := exec_effect hexec
    exact ⟨heff.lowSp_eq, heff.capacity_eq, fun _ => heff.readWord_code hi⟩

end Sys2Proof.Machine
end

section
/-! The step from a good state: it goes on, the fault it takes is the instruction's first, ip stays within labelled
code, and a run of steps keeps what a step keeps. -/

namespace Sys2Proof.Machine

/-! ## What a step does -/

/-- R53: a word of the code region lies in the memory. -/
theorem State.Inv.ip_lt_capacity {s : State} (hi : s.Inv) (hip : s.ip < s.lowSp) : s.ip.toNat < s.capacity.toNat :=
  Nat.lt_of_lt_of_le (BitVec.lt_def.mp hip) hi.lowSp_le_capacity

/-- R131, R135, R141: the four ways of a step of a running good state. -/
theorem step_cases {s : State} (hi : s.Inv) (hs : s.status = .running) :
    (s.ip = s.lowSp ∧ step s = .next s.halt) ∨
    (s.lowSp < s.ip ∧ step s = s.trap .invalidFetch) ∨
    (s.ip < s.lowSp ∧ step s = s.trap .illegalInstruction) ∨
    (s.ip < s.lowSp ∧ ∃ i, decode (s.mem.readWord s.ip.toNat) = .ok i ∧ step s = exec i s) := by
  rcases BitVec.lt_trichotomy s.ip s.lowSp with hip | hip | hip
  · have hc := hi.ip_lt_capacity hip
    cases hw : decode (s.mem.readWord s.ip.toNat) with
    | error r => exact .inr (.inr (.inl ⟨hip, step_of_decode_error hs hip hc hw⟩))
    | ok i => exact .inr (.inr (.inr ⟨hip, i, rfl, step_of_decode_ok hs hip hc hw⟩))
  · exact .inl ⟨hip, step_of_ip_eq hs hip⟩
  · exact .inr (.inl ⟨hip, step_of_ip_gt hs hip⟩)

/-- R210: an instruction that meets no fault leaves the machine running, or is HALT. -/
theorem exec_of_firstFault_none {s : State} {i : Instr} (hi : s.Inv) (hs : s.status = .running)
    (h : s.firstFault i = none) :
    ∃ t, exec i s = .next t ∧ (t.status = .running ∨ t.status = .halted ∧ i.opcode = 1) := by
  obtain ⟨-, horder⟩ := firstFaultInOrderIsReported
  exact (horder s i hi hs).2 h

/-- R141: in a good state every instruction answers a next state. -/
theorem exec_goes_on {s : State} (hi : s.Inv) (hs : s.status = .running) (i : Instr) : ∃ t, exec i s = .next t := by
  cases hf : s.firstFault i with
  | some c => exact ⟨s.raise c, exec_of_firstFault hf⟩
  | none =>
    obtain ⟨t, ht, -⟩ := exec_of_firstFault_none hi hs hf
    exact ⟨t, ht⟩

theorem step_goes_on {s : State} (hi : s.Inv) : ∃ t, step s = .next t := by
  by_cases hs : s.status = .running
  · rcases step_cases hi hs with ⟨-, h⟩ | ⟨-, h⟩ | ⟨-, h⟩ | ⟨-, i, -, h⟩
    · exact ⟨_, h⟩
    · exact ⟨_, h⟩
    · exact ⟨_, h⟩
    · rw [h]
      exact exec_goes_on hi hs i
  · exact ⟨s, step_of_stopped hs⟩

/-- Settles O41: the fetch and every instruction answer a next state, and a stopped machine stays. -/
theorem stepFromGoodStateAlwaysGoesOn : Obligations.StepFromGoodStateAlwaysGoesOn := fun _ => step_goes_on

/-- Settles O35, by the equation of a step whose fetched word decodes. -/
theorem stepRunsDecodedInstruction : Obligations.StepRunsDecodedInstruction := fun _ _ => step_of_decode_ok

/-! ## A placed word (log 4) -/

theorem decode_of_decodeTableWord {nbits w : Nat} {i : Instr} (h : decodeTableWord nbits w = some i) :
    decode (tableWord nbits w) = .ok i := by
  unfold decodeTableWord at h
  split at h
  · rwa [← Option.some.inj h]
  · cases h

/-- Settles O36: the placed word stands at ip, in the code region of a running machine. -/
theorem placedWordIsRunNext : Obligations.PlacedWordIsRunNext := by
  intro s nbits w i hwf hw
  obtain ⟨hip, hc⟩ := s.placeWord_fetchable (tableWord nbits w)
  refine step_of_decode_ok (s.placeWord_status _) hip hc ?_
  rw [State.withFetchWord, State.placeWord_mem, State.placeWord_ip, Memory.readWord_writeWord_same hwf]
  exact decode_of_decodeTableWord hw

/-! ## The course of ip -/

theorem State.raise_notFaulted (s : State) (c : Cause) : (s.raise c).notFaulted = false := rfl

/-- R32: below `LOW_SP` the trailing increment does not wrap. -/
theorem toNat_succ_of_lt {x bound : Word} (h : x < bound) : (x + 1).toNat = x.toNat + 1 := by
  bv_omega

/-- Settles O37: the instruction ends with the trailing increment, from an ip below `LOW_SP`. -/
theorem ipStepsByOneWithinProgram : Obligations.IpStepsByOneWithinProgram := by
  intro s t i hi hs hip hw hjump h hnf
  rw [step_of_decode_ok hs hip (hi.ip_lt_capacity hip) hw] at h
  have heff := exec_effect h
  rcases heff.ip_cases with ⟨c, rfl⟩ | hnext | ⟨hjump', -⟩
  · rw [s.raise_notFaulted c] at hnf
    cases hnf
  · have hlt := BitVec.lt_def.mp hip
    rw [hnext, toNat_succ_of_lt hip, heff.lowSp_eq]
    exact ⟨rfl, hlt⟩
  · rw [hjump] at hjump'
    cases hjump'

/-! ## The end of a run (R142) -/

theorem State.result_of_halted {s : State} (h : s.status = .halted) :
    s.result = some (.halted s.regs s.zf s.cf s.mem) := by
  rw [State.result, h]

theorem State.result_raise (s : State) (c : Cause) : (s.raise c).result = some (.faulted c s.ip) := rfl

/-- Settles O38: a step that stops the machine has reached `LOW_SP`, taken a fault, or run HALT. -/
theorem runEndsInThreeWays : Obligations.RunEndsInThreeWays := by
  intro s t hs h ht
  rcases step_next h with ⟨hstop, -⟩ | ⟨-, hip, rfl⟩ | ⟨-, c, rfl⟩ | ⟨-, hip, -, i, hw, hexec⟩
  · exact absurd hs hstop
  · have hresult := State.result_of_halted s.halt_status
    exact ⟨.inr (.inl ⟨s.halt_status, hip, hip, hresult⟩), by simp [hresult]⟩
  · exact ⟨.inr (.inr ⟨c, rfl, rfl, s.result_raise c⟩), by simp [s.result_raise c]⟩
  · rcases (exec_effect hexec).status_cases with ⟨c, rfl⟩ | hkeep | ⟨a, b, rfl, rfl⟩
    · exact ⟨.inr (.inr ⟨c, rfl, rfl, s.result_raise c⟩), by simp [s.result_raise c]⟩
    · exact absurd (hkeep.trans hs) ht
    · have hresult := State.result_of_halted (s := s.halt.advance) rfl
      exact ⟨.inl ⟨rfl, hip, ⟨a, b, hw⟩, rfl, hresult⟩, by simp [hresult]⟩

/-! ## Which fault a step takes -/

/-- R232: an instruction that ends faulted took its first fault. -/
theorem firstFault_of_exec_faulted {s t : State} {i : Instr} {c : Cause} (hi : s.Inv) (hs : s.status = .running)
    (h : exec i s = .next t) (ht : t.status = .faulted c) : s.firstFault i = some c := by
  cases hf : s.firstFault i with
  | some d =>
    rw [exec_of_firstFault hf] at h
    injection h with h
    rw [← h, State.raise_status] at ht
    injection ht with hd
    rw [hd]
  | none =>
    obtain ⟨u, hu, hgood⟩ := exec_of_firstFault_none hi hs hf
    injection h.symm.trans hu with htu
    rw [← htu, ht] at hgood
    rcases hgood with hrun | ⟨hhalt, -⟩
    · cases hrun
    · cases hhalt

/-- R232: a fault comes from the fetch, from a word that is no instruction, or from the instruction. -/
theorem step_faulted_cause {s t : State} {c : Cause} (hi : s.Inv) (hs : s.status = .running) (h : step s = .next t)
    (ht : t.status = .faulted c) :
    (c = .invalidFetch ∧ s.lowSp < s.ip) ∨ c = .illegalInstruction ∨
      ∃ i, s.ip < s.lowSp ∧ decode (s.mem.readWord s.ip.toNat) = .ok i ∧ s.firstFault i = some c := by
  rcases step_cases hi hs with ⟨-, hstep⟩ | ⟨hip, hstep⟩ | ⟨-, hstep⟩ | ⟨hip, i, hw, hstep⟩
  · injection hstep.symm.trans h with e
    rw [← e, State.halt_status] at ht
    cases ht
  · injection hstep.symm.trans h with e
    rw [← e, State.raise_status] at ht
    injection ht with hc
    exact .inl ⟨hc.symm, hip⟩
  · injection hstep.symm.trans h with e
    rw [← e, State.raise_status] at ht
    injection ht with hc
    exact .inr (.inl hc.symm)
  · exact .inr (.inr ⟨i, hip, hw, firstFault_of_exec_faulted hi hs (hstep.symm.trans h) ht⟩)

theorem State.stackStop_cause {s : State} {i : Instr} {c : Cause} (h : s.stackStop i = some c) :
    c = .stackOverflow ∨ c = .stackUnderflow := by
  cases i with
  | push =>
    obtain ⟨-, hc⟩ := State.stackStop_push_some.mp h
    exact .inl hc
  | pop =>
    obtain ⟨-, hc⟩ := State.stackStop_pop_some.mp h
    exact .inr hc
  | noop | halt | mov | add | int | cmp | jmp | je | jne | jl | jle | jg | jge => cases h

/-- R212: only an instruction that names a missing register takes that fault. -/
theorem State.registersExist_of_firstFault {s : State} {i : Instr}
    (h : s.firstFault i = some .registerOutOfRange) : i.registersExist = false := by
  rcases State.firstFault_some h with ⟨-, hc⟩ | ⟨-, hstack⟩ | ⟨-, -, hr, -⟩ | ⟨-, -, hc⟩
  · cases hc
  · rcases State.stackStop_cause hstack with hc | hc
    · cases hc
    · cases hc
  · exact hr
  · cases hc

/-- R211: no instruction takes the fetch's fault. -/
theorem State.firstFault_ne_invalidFetch (s : State) (i : Instr) : s.firstFault i ≠ some .invalidFetch := by
  intro h
  rcases State.firstFault_some h with ⟨-, hc⟩ | ⟨-, hstack⟩ | ⟨-, -, -, hc⟩ | ⟨-, -, hc⟩
  · cases hc
  · rcases State.stackStop_cause hstack with hc | hc
    · cases hc
    · cases hc
  · cases hc
  · cases hc

/-! ## Code that names existing registers (R212) -/

/-- What a step keeps of a property of every word of the code region. -/
theorem step_keeps_code {s t : State} (hi : s.Inv) (h : step s = .next t) {p : MemWord → Prop}
    (hp : ∀ a, s.inCode a → p (s.mem.readWord a)) : ∀ a, t.inCode a → p (t.mem.readWord a) := by
  obtain ⟨hlow, -, hmem⟩ := codeRegionNeverChanges s t hi h
  intro a ha
  have ha' : s.inCode a := by rwa [State.inCode, ← hlow]
  rw [hmem a ha']
  exact hp a ha'

/-- Settles O45: the code stays, so each instruction run has its registers, and a missing one is the only way to that
fault. -/
theorem stepKeepsCodeNamingRegisters : Obligations.StepKeepsCodeNamingRegisters := by
  intro s t hi hcode hstatus h
  refine ⟨stepKeepsGoodState s t hi h, fun a i ha => ?code, ?status⟩
  case code =>
    exact step_keeps_code hi h (p := fun w => decode w = .ok i → i.registersExist = true) (fun a => hcode a i) a ha
  case status =>
    by_cases hs : s.status = .running
    · intro ht
      rcases step_faulted_cause hi hs h ht with ⟨hc, -⟩ | hc | ⟨i, hip, hw, hf⟩
      · cases hc
      · cases hc
      · have hexist := hcode s.ip.toNat i (BitVec.lt_def.mp hip) hw
        rw [State.registersExist_of_firstFault hf] at hexist
        cases hexist
    · rw [step_of_stopped hs] at h
      injection h with h
      rwa [← h]

/-! ## Code whose jumps go to labels (R211) -/

/-- R31, R211: with labels as jump targets an instruction of the program leaves ip within it. -/
theorem Effect.ip_le {s t : State} {i : Instr} (heff : Effect s i t) (hip : s.ip < s.lowSp)
    (hlabel : i.isJump = true → ∃ target, i.slotA = .addr target ∧ target.toNat ≤ s.lowSp.toNat) :
    t.ip.toNat ≤ s.lowSp.toNat := by
  have hlt := BitVec.lt_def.mp hip
  rcases heff.ip_cases with ⟨c, rfl⟩ | hnext | ⟨hjump, htarget⟩
  · exact hlt.le
  · rw [hnext, toNat_succ_of_lt hip]
    exact hlt
  · obtain ⟨target, hslot, hle⟩ := hlabel hjump
    rw [hslot, State.value_addr] at htarget
    injection htarget with htarget
    rwa [← htarget]

/-- Settles O46: the code stays, ip goes to the next word or to a label, and the fetch faults only above `LOW_SP`. -/
theorem stepKeepsIpWithinLabelledCode : Obligations.StepKeepsIpWithinLabelledCode := by
  intro s t hi hcode hip hstatus h
  refine ⟨stepKeepsGoodState s t hi h, fun a i ha => ?code, ?ip, ?status⟩
  case code =>
    rw [(codeRegionNeverChanges s t hi h).1]
    exact step_keeps_code hi h (p := fun w => decode w = .ok i → i.isJump = true →
      ∃ target, i.slotA = .addr target ∧ target.toNat ≤ s.lowSp.toNat) (fun a => hcode a i) a ha
  case ip =>
    rw [(codeRegionNeverChanges s t hi h).1]
    rcases step_next h with ⟨-, rfl⟩ | ⟨-, -, rfl⟩ | ⟨-, c, rfl⟩ | ⟨-, hlt, -, i, hw, hexec⟩
    · exact hip
    · exact hip
    · exact hip
    · exact (exec_effect hexec).ip_le hlt (hcode s.ip.toNat i (BitVec.lt_def.mp hlt) hw)
  case status =>
    by_cases hs : s.status = .running
    · intro ht
      rcases step_faulted_cause hi hs h ht with ⟨-, hgt⟩ | hc | ⟨i, -, -, hf⟩
      · exact absurd (BitVec.lt_def.mp hgt) (Nat.not_lt.mpr hip)
      · cases hc
      · exact s.firstFault_ne_invalidFetch i hf
    · rw [step_of_stopped hs] at h
      injection h with h
      rwa [← h]

/-! ## Runs (R142, R258) -/

theorem runToEnd_of_stopped {s : State} (h : s.status ≠ .running) (fuel : Nat) : runToEnd fuel s = .next s := by
  cases fuel with
  | zero => rfl
  | succ fuel =>
    unfold runToEnd
    split
    · rfl
    · rfl
    · exact absurd ‹_› h

theorem runToEnd_succ {s t : State} (hs : s.status = .running) (h : step s = .next t) (fuel : Nat) :
    runToEnd (fuel + 1) s = runToEnd fuel t := by
  simp only [runToEnd, hs, h]

/-- The induction over a run: what every step keeps, holds in the state a run answers; and if each step from such a
state goes on, so does the run. -/
theorem runToEnd_keeps {p : State → Prop} (hstep : ∀ s, p s → ∃ t, step s = .next t ∧ p t) (fuel : Nat) {s : State}
    (hp : p s) : ∃ t, runToEnd fuel s = .next t ∧ p t := by
  induction fuel generalizing s with
  | zero => exact ⟨s, rfl, hp⟩
  | succ fuel ih =>
    by_cases hs : s.status = .running
    · obtain ⟨t, ht, hpt⟩ := hstep s hp
      rw [runToEnd_succ hs ht]
      exact ih hpt
    · exact ⟨s, runToEnd_of_stopped hs _, hp⟩

/-- The code region of `s` stands in `t`. -/
def State.SameCode (s t : State) : Prop :=
  t.lowSp = s.lowSp ∧ ∀ a, s.inCode a → t.mem.readWord a = s.mem.readWord a

theorem State.SameCode.step {s t u : State} (h : s.SameCode t) (hi : t.Inv) (hstep : step t = .next u) :
    s.SameCode u := by
  obtain ⟨hlow, hmem⟩ := h
  obtain ⟨hlow', -, hmem'⟩ := codeRegionNeverChanges t u hi hstep
  refine ⟨hlow'.trans hlow, fun a ha => ?_⟩
  have ha' : t.inCode a := by rwa [State.inCode, hlow]
  rw [hmem' a ha', hmem a ha]

/-- Settles O44, by the induction over the run for: the state is good and holds the code region of the start. -/
theorem runFromGoodStateStaysGood : Obligations.RunFromGoodStateStaysGood := by
  intro fuel s hi
  have hstep : ∀ t, t.Inv ∧ s.SameCode t → ∃ u, step t = .next u ∧ u.Inv ∧ s.SameCode u := by
    rintro t ⟨hinv, hcode⟩
    obtain ⟨u, hu⟩ := step_goes_on hinv
    exact ⟨u, hu, stepKeepsGoodState t u hinv hu, hcode.step hinv hu⟩
  obtain ⟨t, ht, hinv, -, hmem⟩ := runToEnd_keeps hstep fuel ⟨hi, rfl, fun _ _ => rfl⟩
  exact ⟨t, ht, hinv, hmem⟩

end Sys2Proof.Machine
end

section
/-! The instructions that complete, by the values of their operands: MOV, ADD (42_mov_add.md), PUSH, POP
(43_push_pop.md), INT 4 (44_int.md), CMP and the jumps after it (45_cmp.md, 46_jumps.md). -/

namespace Sys2Proof.Machine

/-! ## Registers -/

theorem State.regs_writeReg_other (s : State) {d q : Fin 16} (v : Word) (h : q ≠ d) :
    (s.writeReg d v).regs[q.val] = s.regs[q.val] := s.reg_writeReg_other v h.symm

/-- Settles O8, from the two reads after a write and the frame of the write. -/
theorem registerWriteReadsBack : Obligations.RegisterWriteReadsBack := fun s d v =>
  ⟨s.reg_writeReg_same d v, fun _ => s.regs_writeReg_other v, rfl⟩

/-! ## NOOP, the ignored slots, JMP -/

theorem exec_noop (a b : Operand) (s : State) : exec (.noop a b) s = .next s.advance := rfl

/-- Settles O9: NOOP does not look at its slots, and its one operation writes ip alone. -/
theorem noopOnlyAdvances : Obligations.NoopOnlyAdvances := exec_noop

theorem exec_jmp (target b : Operand) (s : State) : exec (.jmp target b) s = s.jumpIf true target := rfl

/-- Settles O19: a taken jump whose target resolves goes to it. -/
theorem jmpWritesTarget : Obligations.JmpWritesTarget := by
  intro s target b v hv
  rw [exec_jmp, State.jumpIf_of_ok hv, if_pos rfl]

/-- Settles O25: by the equations of `exec`, whose right sides do not name the ignored slots. -/
theorem ignoredSlotsHaveNoEffect : Obligations.IgnoredSlotsHaveNoEffect := by
  intro s x a b c d
  simp only [exec_noop, exec_halt, exec_push, exec_pop, exec_int, exec_jmp, exec_je, exec_jne, exec_jl, exec_jle,
    exec_jg, exec_jge, and_self]

/-! ## MOV and ADD -/

theorem exec_mov_of_ok {s : State} {r : Word} (h : r.toNat < 16) {src : Operand} {v : Word}
    (hv : s.value src = .ok v) : exec (.mov (.reg r) src) s = .next (s.writeReg ⟨r.toNat, h⟩ v).advance :=
  State.assign_of_ok rfl (dstreg_of_lt h) hv _

theorem exec_add_of_ok {s : State} {r : Word} (h : r.toNat < 16) {src : Operand} {v : Word}
    (hv : s.value src = .ok v) :
    exec (.add (.reg r) src) s = .next (s.writeReg ⟨r.toNat, h⟩ (s.regs[r.toNat] + v)).advance :=
  State.assign_of_ok rfl (dstreg_of_lt h) hv _

/-- Settles O11, by MOV's equation. -/
theorem movWritesDestination : Obligations.MovWritesDestination := fun _ _ h _ _ => exec_mov_of_ok h

/-- Settles O12: the sum is the machine's own; a register added to itself resolves to the value it is added to. -/
theorem addWritesWrappedSum : Obligations.AddWritesWrappedSum := by
  intro s r h
  refine ⟨fun src v hv => ⟨_, BitVec.toNat_add _ _, exec_add_of_ok h hv⟩, _, ?_,
    exec_add_of_ok h (State.value_reg_of_lt h)⟩
  rw [State.reg_eq_getElem, BitVec.toNat_add, two_mul]

/-! ## PUSH and POP -/

theorem exec_push_of_room {s : State} {src b : Operand} {v : Word} (hv : s.value src = .ok v)
    (room : s.sp.toNat < s.capacity.toNat) : exec (.push src b) s = .next (s.pushed v) := execPush_of_room hv room

theorem exec_pop_of_nonempty {s : State} {r : Word} (h : r.toNat < 16) (b : Operand) (nonempty : s.sp ≠ s.lowSp)
    (hc : (s.sp - 1).toNat < s.capacity.toNat) : exec (.pop (.reg r) b) s = .next (s.popped ⟨r.toNat, h⟩) :=
  execPop_of_nonempty rfl (dstreg_of_lt h) nonempty hc

/-- R51: the datum of a cell, as a field of the word. -/
theorem extractLsb'_eq_datumOf (w : MemWord) : w.extractLsb' 0 64 = datumOf w := by
  rw [datumOf, BitVec.setWidth_eq_extractLsb' (by decide)]

theorem State.readWord_pushed_same {s : State} (hwf : s.mem.wf = true) (v : Word) :
    (s.pushed v).mem.readWord s.sp.toNat = cellOf v := by
  rw [State.pushed_mem, Memory.readWord_writeWord_same hwf]

theorem State.readWord_pushed_other {s : State} (hwf : s.mem.wf = true) (v : Word) {a : Nat} (h : a ≠ s.sp.toNat) :
    (s.pushed v).mem.readWord a = s.mem.readWord a := by
  rw [State.pushed_mem, Memory.readWord_writeWord_other hwf _ h]

theorem State.readByte_pushed_outside {s : State} (hwf : s.mem.wf = true) (v : Word) {n : Nat}
    (h : n < wordBytes * s.sp.toNat ∨ wordBytes * s.sp.toNat + 17 ≤ n) :
    (s.pushed v).mem.readByte n = s.mem.readByte n := by
  rw [State.pushed_mem, Memory.readByte_writeWord_outside hwf _ _ h]

/-- The operations of PUSH write memory, sp and ip, each from the given state. -/
theorem State.advance_setSp_setMem (s : State) (m : Memory) (p : Word) :
    (State.setSp { s with mem := m } p).advance = { s with mem := m, sp := p, ip := s.ip + 1 } := rfl

theorem State.pushed_eq (s : State) (v : Word) :
    s.pushed v = { s with mem := (s.pushed v).mem, sp := s.sp + 1, ip := s.ip + 1 } := by
  rw [State.pushed_mem, State.pushed, State.advance_setSp_setMem]

/-- Settles O13: the state PUSH leaves, and the reads of the memory after one word was written. -/
theorem pushStoresAtSpAndIncrements : Obligations.PushStoresAtSpAndIncrements := by
  intro s src b v hv room hwf
  refine ⟨s.pushed v, exec_push_of_room hv room, s.pushed_eq v, ?datum, ?upper,
    fun _ => State.readByte_pushed_outside hwf v, fun _ => State.readWord_pushed_other hwf v⟩
  case datum => rw [extractLsb'_eq_datumOf, State.readWord_pushed_same hwf, datumOf_cellOf]
  case upper => rw [State.readWord_pushed_same hwf, cellOf_upper]

/-- Settles O14, by POP's equation. -/
theorem popLoadsTopAndDecrements : Obligations.PopLoadsTopAndDecrements := by
  intro s r h b nonempty hc
  rw [exec_pop_of_nonempty h b nonempty hc, extractLsb'_eq_datumOf]
  rfl

/-! ## The stack laws (R167) -/

theorem State.popped_reg (s : State) (d : Fin 16) :
    (s.popped d).regs[d.val] = datumOf (s.mem.readWord (s.sp - 1).toNat) := by
  simp

/-- Operands that PUSH leaves as they were: it writes no register. -/
theorem State.value_pushed (s : State) (v : Word) (op : Operand) : (s.pushed v).value op = s.value op :=
  State.value_congr rfl op

/-- R166: in a good state whose stack is not empty, POP completes. -/
theorem exec_pop_of_inv {s : State} (hi : s.Inv) {r : Word} (h : r.toNat < 16) (b : Operand)
    (nonempty : s.sp ≠ s.lowSp) : exec (.pop (.reg r) b) s = .next (s.popped ⟨r.toNat, h⟩) :=
  exec_pop_of_nonempty h b nonempty (hi.top_lt_capacity nonempty)

/-- After a PUSH the stack is not empty. -/
theorem State.Inv.pushed_sp_ne {s : State} (hi : s.Inv) (room : s.sp.toNat < s.capacity.toNat) (v : Word) :
    (s.pushed v).sp ≠ (s.pushed v).lowSp := by
  have hlow := hi.lowSp_le_sp
  rw [State.pushed_sp, State.pushed_lowSp]
  bv_omega

/-- The cell a POP right after a PUSH reads. -/
theorem State.readWord_pushed_top {s : State} (hwf : s.mem.wf = true) (v : Word) :
    (s.pushed v).mem.readWord ((s.pushed v).sp - 1).toNat = cellOf v := by
  rw [State.pushed_sp, BitVec.add_sub_cancel, State.readWord_pushed_same hwf]

/-- Settles O22: POP reads the cell PUSH wrote and moves sp back. -/
theorem popAfterPushReturnsValue : Obligations.PopAfterPushReturnsValue := by
  intro s src b b' v r h hi hv hne
  have room := hi.sp_lt_capacity hne
  refine ⟨s.pushed v, (s.pushed v).popped ⟨r.toNat, h⟩, exec_push_of_room hv room,
    exec_pop_of_inv (hi.pushed room v) h b' (hi.pushed_sp_ne room v), ?register, ?sp, ?cell⟩
  case register => rw [State.popped_reg _ ⟨r.toNat, h⟩, State.readWord_pushed_top hi.mem_wf, datumOf_cellOf]
  case sp => rw [State.popped_sp, State.pushed_sp, BitVec.add_sub_cancel]
  case cell => rw [State.popped_mem, extractLsb'_eq_datumOf, State.readWord_pushed_same hi.mem_wf, datumOf_cellOf]

/-- Settles O23: the first POP undoes the second PUSH but for a register, and leaves the first PUSH's cell on top. -/
theorem stackIsLastInFirstOut : Obligations.StackIsLastInFirstOut := by
  intro s a b x va vb r q hr hq hi ha hb hroom
  have hcap := hi.capacity_lt
  have room : s.sp.toNat < s.capacity.toNat := by omega
  have hi1 := hi.pushed room va
  have hsp1 : (s.pushed va).sp.toNat = s.sp.toNat + 1 := by
    rw [State.pushed_sp]
    exact toNat_succ_of_lt (bound := s.capacity) (BitVec.lt_def.mpr room)
  have room1 : (s.pushed va).sp.toNat < (s.pushed va).capacity.toNat := by
    rw [hsp1, State.pushed_capacity]
    omega
  have hi2 := hi1.pushed room1 vb
  have nonempty1 := hi.pushed_sp_ne room va
  have nonempty2 := hi1.pushed_sp_ne room1 vb
  have hi3 := hi2.popped nonempty2 ⟨r.toNat, hr⟩
  have hsp3 : (((s.pushed va).pushed vb).popped ⟨r.toNat, hr⟩).sp = (s.pushed va).sp := by
    rw [State.popped_sp, State.pushed_sp _ vb, BitVec.add_sub_cancel]
  refine ⟨s.pushed va, (s.pushed va).pushed vb, ((s.pushed va).pushed vb).popped ⟨r.toNat, hr⟩,
    (((s.pushed va).pushed vb).popped ⟨r.toNat, hr⟩).popped ⟨q.toNat, hq⟩, exec_push_of_room ha room,
    exec_push_of_room ((s.value_pushed va b).trans hb) room1, exec_pop_of_inv hi2 hr x nonempty2,
    exec_pop_of_inv hi3 hq x (hsp3 ▸ nonempty1), ?first, ?second, ?sp⟩
  case first => rw [State.popped_reg _ ⟨r.toNat, hr⟩, State.readWord_pushed_top hi1.mem_wf, datumOf_cellOf]
  case second =>
    have hbelow : ((s.pushed va).sp - 1).toNat ≠ (s.pushed va).sp.toNat := by bv_omega
    rw [State.popped_reg _ ⟨q.toNat, hq⟩, hsp3, State.popped_mem, State.readWord_pushed_other hi1.mem_wf vb hbelow,
      State.readWord_pushed_top hi.mem_wf, datumOf_cellOf]
  case sp => rw [State.popped_sp, hsp3, State.pushed_sp, BitVec.add_sub_cancel]

/-! ## INT 4 -/

/-- R175: with code 4 INT prints. -/
theorem exec_int_four {s : State} {n b : Operand} (hn : s.value n = .ok 4) : exec (.int n b) s = s.printCell := by
  rw [exec_int, execInt_of_ok hn, if_pos rfl]

/-- Settles O16, by the place of the cell. -/
theorem interruptFourPrintsStackCell : Obligations.InterruptFourPrintsStackCell := by
  intro s n b hn
  constructor
  case left =>
    intro a hnonneg hindex ha
    have hinside : ¬s.cellOutside := by rw [State.cellOutside]; omega
    have hprint : s.printIndex.toNat = a := by rw [s.printIndex_eq, hindex, Int.toNat_natCast]
    rw [exec_int_four hn, State.printCell_of_inside hinside, hprint, extractLsb'_eq_datumOf]
    rfl
  case right =>
    intro houtside
    rw [exec_int_four hn, State.printCell_of_outside houtside]
    rfl

/-! ## CMP -/

/-- R185: the exact difference is 0 for equal patterns only. -/
theorem difference_eq_zero_iff {va vb : Word} : difference va vb = 0 ↔ va = vb := by
  rw [difference, Int.sub_eq_zero, BitVec.toInt_inj]

theorem difference_neg_iff {va vb : Word} : difference va vb < 0 ↔ va.toInt < vb.toInt := by
  rw [difference]
  omega

/-- R185: the flags CMP sets. -/
theorem State.compare_eq (s : State) (va vb : Word) :
    s.compare va vb = { s with zf := decide (va = vb), cf := decide (va.toInt < vb.toInt) } := by
  simp only [State.compare, difference_eq_zero_iff, difference_neg_iff]
  rfl

theorem exec_cmp_of_ok {s : State} {a b : Operand} {va vb : Word} (ha : s.value a = .ok va) (hb : s.value b = .ok vb) :
    exec (.cmp a b) s = .next (s.compare va vb).advance := execCmp_of_ok ha hb

/-- Settles O17: the comparison's flags, and the exact difference by its zero and its sign. -/
theorem cmpSetsZeroAndLess : Obligations.CmpSetsZeroAndLess := by
  intro s a b va vb ha hb
  rw [exec_cmp_of_ok ha hb, State.compare_eq]
  exact ⟨rfl, difference_eq_zero_iff.symm, difference_neg_iff.symm⟩

/-! ## The jumps after CMP (R187) -/

/-- R191: a jump goes by its condition, in whatever form the condition is given. -/
theorem State.jumpIf_of_iff {s : State} {target : Operand} {v : Word} (hv : s.value target = .ok v) {taken : Bool}
    {p : Prop} [Decidable p] (hp : taken = true ↔ p) :
    s.jumpIf taken target = .next { s with ip := if p then v else s.ip + 1 } := by
  simp only [State.jumpIf_of_ok hv, hp]

section
variable (s : State) (va vb : Word)

theorem State.zf_after_cmp : (s.compare va vb).advance.zf = decide (va.toInt = vb.toInt) := by
  simp [difference, Int.sub_eq_zero]

theorem State.cf_after_cmp : (s.compare va vb).advance.cf = decide (va.toInt < vb.toInt) := by
  simp [difference_neg_iff]

theorem State.condE_after_cmp : (s.compare va vb).advance.condE = true ↔ va.toInt = vb.toInt := by
  rw [State.condE_iff, State.zf_after_cmp, decide_eq_true_eq]

theorem State.condNE_after_cmp : (s.compare va vb).advance.condNE = true ↔ va.toInt ≠ vb.toInt := by
  rw [State.condNE_iff, State.zf_after_cmp, decide_eq_false_iff_not]

theorem State.condL_after_cmp : (s.compare va vb).advance.condL = true ↔ va.toInt < vb.toInt := by
  rw [State.condL_iff, State.zf_after_cmp, State.cf_after_cmp, decide_eq_false_iff_not, decide_eq_true_eq]
  omega

theorem State.condLE_after_cmp : (s.compare va vb).advance.condLE = true ↔ va.toInt ≤ vb.toInt := by
  rw [State.condLE_iff, State.zf_after_cmp, State.cf_after_cmp, decide_eq_true_eq, decide_eq_true_eq]
  omega

theorem State.condG_after_cmp : (s.compare va vb).advance.condG = true ↔ va.toInt > vb.toInt := by
  rw [State.condG_iff, State.zf_after_cmp, State.cf_after_cmp, decide_eq_false_iff_not, decide_eq_false_iff_not]
  omega

theorem State.condGE_after_cmp : (s.compare va vb).advance.condGE = true ↔ va.toInt ≥ vb.toInt := by
  rw [State.condGE_iff, State.zf_after_cmp, State.cf_after_cmp, decide_eq_true_eq, decide_eq_false_iff_not]
  omega

end

/-- Settles O21: the flags CMP leaves, read by each jump's condition, say the signed order. -/
theorem jumpsAfterCmpFollowSignedOrder : Obligations.JumpsAfterCmpFollowSignedOrder := by
  intro s a b target c va vb v ha hb htarget
  have hzf := s.zf_after_cmp va vb
  have hcf := s.cf_after_cmp va vb
  have hvalue : (s.compare va vb).advance.value target = .ok v := (State.value_congr rfl target).trans htarget
  refine ⟨_, exec_cmp_of_ok ha hb, ?eq, ?lt, ?gt, State.jumpIf_of_iff hvalue (s.condE_after_cmp va vb),
    State.jumpIf_of_iff hvalue (s.condNE_after_cmp va vb), State.jumpIf_of_iff hvalue (s.condL_after_cmp va vb),
    State.jumpIf_of_iff hvalue (s.condLE_after_cmp va vb), State.jumpIf_of_iff hvalue (s.condG_after_cmp va vb),
    State.jumpIf_of_iff hvalue (s.condGE_after_cmp va vb)⟩
  case eq =>
    intro h
    rw [hzf, hcf, decide_eq_true_eq, decide_eq_false_iff_not]
    omega
  case lt =>
    intro h
    rw [hzf, hcf, decide_eq_false_iff_not, decide_eq_true_eq]
    omega
  case gt =>
    intro h
    rw [hzf, hcf, decide_eq_false_iff_not, decide_eq_false_iff_not]
    omega

/-! ## The registers the host reads (R27, R37) -/

/-- Settles O32: by evaluation over the eight statuses and the four pairs of flags. -/
theorem statusAndFlagsRegistersEncode : Obligations.StatusAndFlagsRegistersEncode := by
  refine ⟨rfl, rfl, fun _ => rfl, rfl, fun t => ?status, fun s => ?flags⟩
  case status =>
    cases t with
    | running => decide
    | halted => decide
    | faulted c => cases c <;> decide
  case flags =>
    rw [State.flagsWord]
    cases s.zf <;> cases s.cf <;> decide

end Sys2Proof.Machine
end

section
/-! No instruction reads the code region (R60, R70): with another memory that agrees on the stack region, every check
and access of an instruction's meaning goes the same way (`SameButMemory`). -/

namespace Sys2Proof.Machine

/-- R176: INT 4 inside the stack region is a read. -/
theorem State.printCell_eq_withRead {s : State} (h : ¬s.cellOutside) :
    s.printCell = s.withRead s.printIndex.toNat fun w => .next (s.emit (datumOf w).toInt).advance := if_neg h

/-- Two next states that differ in memory only, and there not in the stack region of `s`. -/
def State.SameButMemory (s t t' : State) : Prop :=
  t' = { t with mem := t'.mem } ∧ ∀ a, s.inStack a → t'.mem.readWord a = t.mem.readWord a

/-- If the first answers a next state, so does the second, and the two differ in the memory outside the stack region of
`s` only. -/
def State.Follows (s : State) (r r' : Result) : Prop :=
  ∀ t, r = .next t → ∃ t', r' = .next t' ∧ s.SameButMemory t t'

section
variable {s : State} {m : Memory}

theorem State.Follows.next {t t' : State} (h : s.SameButMemory t t') : s.Follows (.next t) (.next t') := by
  rintro u hu
  injection hu with hu
  exact ⟨t', rfl, hu ▸ h⟩

/-- The memory put in place of that of `s`. -/
abbrev State.withMem (s : State) (m : Memory) : State := { s with mem := m }

/-- R137: no operand is resolved from memory. -/
theorem State.value_withMem (op : Operand) : (s.withMem m).value op = s.value op := State.value_congr rfl op

variable (hm : ∀ a, s.inStack a → m.readWord a = s.mem.readWord a)
include hm

/-! ## The checks and accesses -/

theorem State.Follows.trap (c : Cause) : s.Follows (s.trap c) ((s.withMem m).trap c) :=
  State.Follows.next ⟨rfl, hm⟩

theorem State.Follows.needValue (op : Operand) {k k' : Result} (hk : s.Follows k k') :
    s.Follows (s.needValue op k) ((s.withMem m).needValue op k') := by
  cases op with
  | none => exact State.Follows.trap hm _
  | imm _ | reg _ | addr _ => exact hk

theorem State.Follows.needRegister (op : Operand) {k k' : Result} (hk : s.Follows k k') :
    s.Follows (s.needRegister op k) ((s.withMem m).needRegister op k') := by
  cases op with
  | reg _ => exact hk
  | none | imm _ | addr _ => exact State.Follows.trap hm _

theorem State.Follows.withValue (op : Operand) {k k' : Word → Result} (hk : ∀ v, s.Follows (k v) (k' v)) :
    s.Follows (s.withValue op k) ((s.withMem m).withValue op k') := by
  cases hv : s.value op with
  | error c =>
    rw [State.withValue_of_error hv, State.withValue_of_error ((State.value_withMem op).trans hv)]
    exact State.Follows.trap hm c
  | ok v =>
    rw [State.withValue_of_ok hv, State.withValue_of_ok ((State.value_withMem op).trans hv)]
    exact hk v

theorem State.Follows.withDst (op : Operand) {k k' : Fin 16 → Result} (hk : ∀ d, s.Follows (k d) (k' d)) :
    s.Follows (s.withDst op k) ((s.withMem m).withDst op k') := by
  cases hd : dstreg op with
  | error c =>
    rw [State.withDst_of_error hd, State.withDst_of_error hd]
    exact State.Follows.trap hm c
  | ok d =>
    rw [State.withDst_of_ok hd, State.withDst_of_ok hd]
    exact hk d

/-- R58, R59: a read of the stack region reads the same word. -/
theorem State.Follows.withRead {a : Nat} (ha : s.lowSp.toNat ≤ a) {k k' : MemWord → Result}
    (hk : ∀ w, s.Follows (k w) (k' w)) : s.Follows (s.withRead a k) ((s.withMem m).withRead a k') := by
  intro t h
  obtain ⟨hc, h⟩ := State.withRead_next h
  rw [State.withRead_of_lt (s := s.withMem m) hc, hm a ⟨ha, hc⟩]
  exact hk _ t h

/-- R57: after the same write the stack regions still agree. -/
theorem readWord_writeWord_congr (hwf : s.mem.wf = true) (hwf' : m.wf = true) (a : Nat) (w : MemWord) {q : Nat}
    (hq : s.inStack q) : (m.writeWord a w).readWord q = (s.mem.writeWord a w).readWord q := by
  by_cases h : q = a
  · subst h
    rw [Memory.readWord_writeWord_same hwf', Memory.readWord_writeWord_same hwf]
  · rw [Memory.readWord_writeWord_other hwf' _ h, Memory.readWord_writeWord_other hwf _ h]
    exact hm q hq

theorem State.Follows.withWrite (hwf : s.mem.wf = true) (hwf' : m.wf = true) (a : Nat) (w : MemWord)
    {k : State → Result}
    (hk : ∀ n n' : Memory, (∀ q, s.inStack q → n'.readWord q = n.readWord q) →
      s.Follows (k (s.withMem n)) (k (s.withMem n'))) :
    s.Follows (s.withWrite a w k) ((s.withMem m).withWrite a w k) := by
  intro t h
  obtain ⟨hc, h⟩ := State.withWrite_next h
  rw [State.withWrite_of_lt (s := s.withMem m) hc]
  exact hk _ _ (fun q => readWord_writeWord_congr hm hwf hwf' a w) t h

/-! ## The instructions -/

theorem execPush_follows (hi : s.Inv) (hwf : m.wf = true) (src : Operand) :
    s.Follows (execPush src s) (execPush src (s.withMem m)) := by
  refine State.Follows.needValue hm src ?_
  split
  · exact State.Follows.trap hm _
  · exact State.Follows.withValue hm src fun v =>
      State.Follows.withWrite hm hi.mem_wf hwf _ _ fun _ _ hn => State.Follows.next ⟨rfl, hn⟩

/-- R35, R166: POP reads a cell of the stack region, since sp is above `LOW_SP`. -/
theorem execPop_follows (hi : s.Inv) (dst : Operand) :
    s.Follows (execPop dst s) (execPop dst (s.withMem m)) := by
  refine State.Follows.needRegister hm dst ?_
  split
  · exact State.Follows.trap hm _
  · have hlow := hi.lowSp_le_sp
    have htop : s.lowSp.toNat ≤ (s.sp - 1).toNat := by bv_omega
    exact State.Follows.withDst hm dst fun d => State.Follows.withRead hm htop fun w => State.Follows.next ⟨rfl, hm⟩

/-- R176: INT 4 reads a cell of the stack region, since its number is not negative. -/
theorem State.printCell_follows : s.Follows s.printCell (s.withMem m).printCell := by
  by_cases houtside : s.cellOutside
  · rw [State.printCell_of_outside houtside, State.printCell_of_outside (s := s.withMem m) houtside]
    exact State.Follows.trap hm _
  · have hindex : s.printIndex = s.lowSp.toNat + (s.reg ecx).toInt := rfl
    have hnonneg : ¬(s.reg ecx).toInt < 0 := (not_or.mp houtside).1
    have hlow : s.lowSp.toNat ≤ s.printIndex.toNat := by omega
    rw [State.printCell_eq_withRead houtside, State.printCell_eq_withRead (s := s.withMem m) houtside]
    exact State.Follows.withRead hm hlow fun w => State.Follows.next ⟨rfl, hm⟩

theorem execInt_follows (n : Operand) : s.Follows (execInt n s) (execInt n (s.withMem m)) := by
  refine State.Follows.needValue hm n (State.Follows.withValue hm n fun code => ?_)
  split
  · exact State.printCell_follows hm
  · exact State.Follows.next ⟨rfl, hm⟩

theorem State.jumpIf_follows (taken : Bool) (target : Operand) :
    s.Follows (s.jumpIf taken target) ((s.withMem m).jumpIf taken target) := by
  refine State.Follows.needValue hm target (State.Follows.withValue hm target fun v => State.Follows.next ?_)
  rw [State.branch_eq, State.branch_eq]
  exact ⟨rfl, hm⟩

/-- R60, R70: every instruction follows. -/
theorem exec_follows (hi : s.Inv) (hwf : m.wf = true) (i : Instr) :
    s.Follows (exec i s) (exec i (s.withMem m)) := by
  cases i with
  | noop | halt => exact State.Follows.next ⟨rfl, hm⟩
  | mov dst src | add dst src =>
    exact State.Follows.needRegister hm dst <| State.Follows.needValue hm src <| State.Follows.withDst hm dst fun d =>
      State.Follows.withValue hm src fun v => State.Follows.next ⟨rfl, hm⟩
  | push src => exact execPush_follows hm hi hwf src
  | pop dst => exact execPop_follows hm hi dst
  | int n => exact execInt_follows hm n
  | cmp a b =>
    exact State.Follows.needValue hm a <| State.Follows.needValue hm b <| State.Follows.withValue hm a fun va =>
      State.Follows.withValue hm b fun vb => State.Follows.next ⟨rfl, hm⟩
  | jmp target | je target | jne target | jl target | jle target | jg target | jge target =>
    exact State.jumpIf_follows hm _ target

end

/-- Settles O43, as `exec_follows` says. -/
theorem instructionsNeverReadCode : Obligations.InstructionsNeverReadCode :=
  fun _ t _ i hi hwf hm h => exec_follows hm hi hwf i t h

end Sys2Proof.Machine
end

section
/-! Construct, load, reset (R250 to R257): the machine they boot, which images they take, and that it is a good
state. -/

namespace Sys2Proof.Machine

/-! ## The booted machine -/

/-- The machine after construct and load (R252, R257). -/
def State.loaded (capacity : Word) (image : List MemWord) : State :=
  { State.construct capacity with mem := Memory.writeImage [] 0 image, lowSp := BitVec.ofNat 64 image.length }

/-- The machine a successful boot gives (R252). -/
def State.booted (capacity : Word) (image : List MemWord) : State :=
  (State.loaded capacity image).resetTransaction

@[simp] theorem State.loaded_mem (capacity : Word) (image : List MemWord) :
    (State.loaded capacity image).mem = Memory.writeImage [] 0 image := rfl

/-- R253: the image fits the memory, and the memory is not too large. -/
def Fits (capacity : Word) (image : List MemWord) : Prop :=
  image.length ≤ capacity.toNat ∧ capacity.toNat < 2 ^ 63

/-- R252, R253: boot answers the booted machine for the images that fit, and no other. -/
theorem boot_eq_ok_iff {capacity : Word} {image : List MemWord} {s : State} :
    boot capacity image = .ok s ↔ Fits capacity image ∧ s = State.booted capacity image := by
  have hcap : (State.construct capacity).capacity = capacity := rfl
  unfold boot State.load Fits
  rw [hcap]
  by_cases hlarge : 2 ^ 63 ≤ capacity.toNat
  · rw [if_pos hlarge]
    exact iff_of_false nofun fun h => absurd h.1.2 (Nat.not_lt.mpr hlarge)
  · by_cases hlong : capacity.toNat < image.length
    · rw [if_neg hlarge, if_pos hlong]
      exact iff_of_false nofun fun h => absurd h.1.1 (Nat.not_le.mpr hlong)
    · rw [if_neg hlarge, if_neg hlong]
      constructor
      · intro h
        exact ⟨⟨Nat.not_lt.mp hlong, Nat.not_le.mp hlarge⟩, (Except.ok.inj h).symm⟩
      · rintro ⟨-, rfl⟩
        rfl

@[simp] theorem State.booted_lowSp (capacity : Word) (image : List MemWord) :
    (State.booted capacity image).lowSp = BitVec.ofNat 64 image.length := rfl

/-- R257: `LOW_SP` is the length of an image that fits. -/
theorem State.booted_lowSp_toNat {capacity : Word} {image : List MemWord} (h : Fits capacity image) :
    (State.booted capacity image).lowSp.toNat = image.length := by
  obtain ⟨hlen, hcap⟩ := h
  rw [State.booted_lowSp, BitVec.toNat_ofNat, Nat.mod_eq_of_lt (by omega)]

/-- R257: word `k` of the image stands at index `k`. -/
theorem State.readWord_booted_code {capacity : Word} {image : List MemWord} (hfits : Fits capacity image) {k : Nat}
    (h : k < image.length) : (State.booted capacity image).mem.readWord k = image[k] := by
  have hk : k < (State.loaded capacity image).lowSp.toNat := h.trans_eq (State.booted_lowSp_toNat hfits).symm
  have hword := Memory.readWord_writeImage (m := []) rfl 0 h
  rw [Nat.zero_add] at hword
  rw [State.booted, State.readWord_resetTransaction_code _ hk, State.loaded_mem, hword]

/-- R42, R250: the words above the image are 0. -/
theorem State.readWord_booted_stack {capacity : Word} {image : List MemWord} (hfits : Fits capacity image) {a : Nat}
    (h : image.length ≤ a) : (State.booted capacity image).mem.readWord a = 0 :=
  State.readWord_resetTransaction_stack _ (by rwa [← State.booted_lowSp_toNat hfits] at h)

/-- R250: a reset leaves a good state if the memory is in canonical form, and `LOW_SP` and `CAPACITY` are in order. -/
theorem State.inv_resetTransaction {s : State} (hwf : s.mem.wf = true) (hlow : s.lowSp.toNat ≤ s.capacity.toNat)
    (hcap : s.capacity.toNat < 2 ^ 63) : s.resetTransaction.Inv where
  lowSp_le_capacity := hlow
  capacity_lt := hcap
  lowSp_le_sp := Nat.le_refl _
  sp_le_capacity := hlow
  mem_wf := Memory.wf_filter_below hwf _
  mem_inside := by
    intro c hc
    have hbelow : c.1 < wordBytes * s.lowSp.toNat := of_decide_eq_true (List.mem_filter.mp hc).2
    exact Nat.lt_of_lt_of_le hbelow (Nat.mul_le_mul_left _ hlow)
  stack_upper_zero := by
    intro a ha _
    rw [s.readWord_resetTransaction_stack ha]
    decide
  flags_exclusive := by simp
  out_signed64 := by simp

theorem State.inv_booted {capacity : Word} {image : List MemWord} (hfits : Fits capacity image) :
    (State.booted capacity image).Inv := by
  have hlow := State.booted_lowSp_toNat hfits
  obtain ⟨hlen, hcap⟩ := hfits
  refine State.inv_resetTransaction (Memory.wf_writeImage rfl 0 image) ?_ hcap
  exact hlow.le.trans hlen

/-- Settles O52: boot succeeds for the images that fit, with the booted machine. -/
theorem bootedMachineHoldsItsImage : Obligations.BootedMachineHoldsItsImage := by
  intro capacity image
  constructor
  case left =>
    constructor
    · rintro ⟨s, hs⟩
      exact (boot_eq_ok_iff.mp hs).1
    · intro hfits
      exact ⟨_, boot_eq_ok_iff.mpr ⟨hfits, rfl⟩⟩
  case right =>
    intro s hs
    obtain ⟨hfits, rfl⟩ := boot_eq_ok_iff.mp hs
    exact ⟨rfl, State.booted_lowSp_toNat hfits, rfl, rfl, rfl, fun k => State.readWord_booted_code hfits,
      fun a => State.readWord_booted_stack hfits, State.inv_booted hfits⟩

/-- What holds of every word of the image holds of every word of the booted machine's code region. -/
theorem State.booted_code {capacity : Word} {image : List MemWord} (hfits : Fits capacity image) {p : MemWord → Prop}
    (hp : ∀ w ∈ image, p w) (a : Nat) (ha : (State.booted capacity image).inCode a) :
    p ((State.booted capacity image).mem.readWord a) := by
  rw [State.inCode, State.booted_lowSp_toNat hfits] at ha
  rw [State.readWord_booted_code hfits ha]
  exact hp _ (List.getElem_mem ha)

/-! ## The state after reset with no program (log 3) -/

/-- Settles O51, by evaluating the three transactions on the empty image. -/
theorem resetIsBootOfEmptyProgram : Obligations.ResetIsBootOfEmptyProgram := rfl

/-- Settles O40: `State.reset` is a booted machine. -/
theorem resetIsGoodState : Obligations.ResetIsGoodState := by
  obtain ⟨hfits, hreset⟩ := boot_eq_ok_iff.mp resetIsBootOfEmptyProgram
  rw [Obligations.ResetIsGoodState, hreset]
  exact State.inv_booted hfits

/-- Settles O50: the fields are as listed, and no byte is. -/
theorem resetRegistersHoldSpecValues : Obligations.ResetRegistersHoldSpecValues := by
  have hregs : ∀ r : Fin 16, State.reset.regs[r.val] = 0 := fun r => by simp [State.reset]
  have hmem : ∀ a, State.reset.mem.readWord a = 0 := fun a => Memory.readWord_unlisted fun _ _ => rfl
  exact ⟨hregs, rfl, rfl, rfl, rfl, rfl, hmem, rfl⟩

/-! ## Runs from a booted image whose jumps are labels (R211) -/

/-- The states from which no step leaves the program: what O46 says every step keeps. -/
def State.WithinLabelledCode (s : State) : Prop :=
  s.Inv ∧ s.codeJumpsToLabels ∧ s.ip.toNat ≤ s.lowSp.toNat ∧ s.status ≠ .faulted .invalidFetch

theorem State.WithinLabelledCode.step {s : State} (h : s.WithinLabelledCode) :
    ∃ t, step s = .next t ∧ t.WithinLabelledCode := by
  obtain ⟨hi, hcode, hip, hstatus⟩ := h
  obtain ⟨t, ht⟩ := step_goes_on hi
  exact ⟨t, ht, stepKeepsIpWithinLabelledCode s t hi hcode hip hstatus ht⟩

/-- Settles O48: the booted machine starts within labelled code, and every step of the run stays there. -/
theorem labelJumpsNeverLeaveProgram : Obligations.LabelJumpsNeverLeaveProgram := by
  intro capacity image s t fuel hboot himage hrun
  obtain ⟨hfits, rfl⟩ := boot_eq_ok_iff.mp hboot
  have hcode : (State.booted capacity image).codeJumpsToLabels := by
    intro a i ha
    rw [State.booted_lowSp_toNat hfits]
    exact State.booted_code hfits (p := fun w => decode w = .ok i → i.isJump = true →
      ∃ target, i.slotA = .addr target ∧ target.toNat ≤ image.length) (fun w hw => himage w hw i) a ha
  have hstart : (State.booted capacity image).WithinLabelledCode :=
    ⟨State.inv_booted hfits, hcode, Nat.zero_le _, Status.noConfusion⟩
  obtain ⟨u, hu, -, -, -, hstatus⟩ := runToEnd_keeps (fun _ => State.WithinLabelledCode.step) fuel hstart
  injection hrun.symm.trans hu with htu
  rwa [htu]

end Sys2Proof.Machine
end

section
/-! The assembler (30_encoding.md section 6). A line is looked at through two views, the label it defines (`lineLabel`)
and whether it holds an instruction (`lineHasInstr`); pass 1 is described by them, and pass 2 counts by the second. -/

namespace Sys2Proof.Machine

/-! ## A line -/

/-- The line holds an instruction (R103, R105). -/
def lineHasInstr (l : Line) : Bool := instrTokens (tokens l) ≠ []

/-- The label a line begins with, if its first token defines one (R102, R103). -/
def lineLabel (l : Line) : Option Token :=
  match tokens l with
  | [] => none
  | t :: _ => if !startsComment t && isLabelDef t then some (labelName t) else none

theorem lineHasInstr_of_nil {l : Line} (h : instrTokens (tokens l) = []) : lineHasInstr l = false := by
  rw [lineHasInstr, h]
  rfl

theorem lineHasInstr_of_cons {l : Line} {t : Token} {ts : List Token} (h : instrTokens (tokens l) = t :: ts) :
    lineHasInstr l = true := by
  rw [lineHasInstr, h]
  rfl

/-- R101: nothing after a comment begins is an instruction. -/
theorem instrTokens_of_comment {t : Token} (ts : List Token) (h : startsComment t = true) :
    instrTokens (t :: ts) = [] := by
  simp [instrTokens, h]

/-- R105: a label-definition token is passed over. -/
theorem instrTokens_of_label {t : Token} (ts : List Token) (hc : startsComment t = false) (hl : isLabelDef t = true) :
    instrTokens (t :: ts) = instrTokens ts := by
  simp [instrTokens, hc, hl]

theorem lineLabel_of_tokens {l : Line} {t : Token} {ts : List Token} (h : tokens l = t :: ts) :
    lineLabel l = if !startsComment t && isLabelDef t then some (labelName t) else none := by
  simp only [lineLabel, h]

theorem lineLabel_eq_some_iff {l : Line} {name : Token} :
    lineLabel l = some name ↔
      ∃ t ts, tokens l = t :: ts ∧ startsComment t = false ∧ isLabelDef t = true ∧ labelName t = name := by
  unfold lineLabel
  cases tokens l with
  | nil => simp
  | cons t ts => simp [and_assoc]

/-! ## Pass 1 -/

/-- R103: what one line adds to the Label Table and to the count. -/
theorem resolveLine_eq (acc : LabelTable × Nat) (l : Line) :
    resolveLine acc l =
      (((lineLabel l).map fun name => (name, acc.2)).toList ++ acc.1, acc.2 + (lineHasInstr l).toNat) := by
  unfold resolveLine
  cases h : tokens l with
  | nil => simp [lineLabel, lineHasInstr, h, instrTokens]
  | cons t ts =>
    rw [lineLabel_of_tokens h, lineHasInstr, h]
    cases hc : startsComment t with
    | true => simp [hc, instrTokens_of_comment ts hc]
    | false =>
      cases hl : isLabelDef t with
      | true => by_cases hi : instrTokens ts = [] <;> simp [hc, hl, hi, instrTokens_of_label ts hc hl]
      | false => by_cases hi : instrTokens (t :: ts) = [] <;> simp [hc, hl, hi]

theorem resolveLine_count (acc : LabelTable × Nat) (l : Line) :
    (resolveLine acc l).2 = acc.2 + (lineHasInstr l).toNat := by rw [resolveLine_eq]

theorem resolveLine_table_of_label {acc : LabelTable × Nat} {l : Line} {name : Token} (h : lineLabel l = some name) :
    (resolveLine acc l).1 = (name, acc.2) :: acc.1 := by
  rw [resolveLine_eq, h]
  rfl

theorem resolveLine_table_of_none {acc : LabelTable × Nat} {l : Line} (h : lineLabel l = none) :
    (resolveLine acc l).1 = acc.1 := by
  rw [resolveLine_eq, h]
  rfl

theorem countP_lineHasInstr_cons (l : Line) (text : List Line) :
    (l :: text).countP lineHasInstr = text.countP lineHasInstr + (lineHasInstr l).toNat := by
  rw [List.countP_cons]
  cases lineHasInstr l <;> rfl

/-- R103: the count is the number of lines that hold an instruction. -/
theorem foldl_resolveLine_count (text : List Line) (acc : LabelTable × Nat) :
    (text.foldl resolveLine acc).2 = acc.2 + text.countP lineHasInstr := by
  induction text generalizing acc with
  | nil => rfl
  | cons l text ih =>
    rw [List.foldl_cons, ih, resolveLine_count, countP_lineHasInstr_cons]
    omega

theorem resolveLabels_count (text : List Line) : (resolveLabels text).2 = text.countP lineHasInstr :=
  (foldl_resolveLine_count text ([], 0)).trans (Nat.zero_add _)

/-! ## Where labels lie (R104) -/

/-- Every label of the table lies within the instructions counted. -/
def LabelsWithin (acc : LabelTable × Nat) : Prop := ∀ entry ∈ acc.1, entry.2 ≤ acc.2

theorem LabelsWithin.after_line {acc : LabelTable × Nat} (h : LabelsWithin acc) (l : Line) :
    LabelsWithin (resolveLine acc l) := by
  have hcount : acc.2 ≤ (resolveLine acc l).2 := by
    rw [resolveLine_count]
    exact Nat.le_add_right _ _
  intro entry hentry
  cases hl : lineLabel l with
  | none =>
    rw [resolveLine_table_of_none hl] at hentry
    exact (h entry hentry).trans hcount
  | some name =>
    rw [resolveLine_table_of_label hl] at hentry
    rcases List.mem_cons.mp hentry with rfl | hold
    · exact hcount
    · exact (h entry hold).trans hcount

theorem LabelsWithin.after_text {acc : LabelTable × Nat} (h : LabelsWithin acc) (text : List Line) :
    LabelsWithin (text.foldl resolveLine acc) := by
  induction text generalizing acc with
  | nil => exact h
  | cons l text ih => exact ih (h.after_line l)

/-- Settles O55: a label gets the count so far, and the count only grows. -/
theorem labelsLieWithinProgram : Obligations.LabelsLieWithinProgram :=
  fun text => LabelsWithin.after_text (acc := ([], 0)) nofun text

/-! ## The definition that wins (R104) -/

/-- Lines that do not define a name leave its entry. -/
theorem lookup_foldl_resolveLine {text : List Line} {name : Token} (h : ∀ l ∈ text, lineLabel l ≠ some name)
    (acc : LabelTable × Nat) : (text.foldl resolveLine acc).1.lookup name = acc.1.lookup name := by
  induction text generalizing acc with
  | nil => rfl
  | cons l text ih =>
    obtain ⟨hl, htext⟩ := List.forall_mem_cons.mp h
    rw [List.foldl_cons, ih htext]
    cases hlabel : lineLabel l with
    | none => rw [resolveLine_table_of_none hlabel]
    | some other =>
      have hne : name ≠ other := fun e => hl (e ▸ hlabel)
      rw [resolveLine_table_of_label hlabel, List.lookup_cons, beq_eq_false_iff_ne.mpr hne]

/-- Settles O56: the line puts its label on top of the table, and the lines after it leave that entry. -/
theorem lastLabelDefinitionWins : Obligations.LastLabelDefinitionWins := by
  intro before rest l t ts htokens hcomment hlabel hrest
  have hline : lineLabel l = some (labelName t) := lineLabel_eq_some_iff.mpr ⟨t, ts, htokens, hcomment, hlabel, rfl⟩
  have hlater : ∀ l' ∈ rest, lineLabel l' ≠ some (labelName t) := by
    intro l' hl' hdef
    obtain ⟨t', ts', htokens', hcomment', hlabel', hname⟩ := lineLabel_eq_some_iff.mp hdef
    exact hrest l' hl' t' ts' htokens' hcomment' hlabel' hname
  rw [resolveLabels, List.foldl_append, List.foldl_cons, lookup_foldl_resolveLine hlater,
    resolveLine_table_of_label hline, List.lookup_cons_self]
  rfl

/-! ## Pass 2 -/

/-- R105: a line that encodes gives an instruction exactly when it holds one. -/
theorem encodeLine_isSome {table : LabelTable} {l : Line} {o : Option Instr} (h : encodeLine table l = .ok o) :
    o.isSome = lineHasInstr l := by
  unfold encodeLine at h
  split at h
  · cases h
    exact (lineHasInstr_of_nil ‹_›).symm
  · split at h
    · cases h
    · split at h
      · cases h
        exact (lineHasInstr_of_cons ‹_›).symm
      · cases h

/-- R105, R111: pass 2 succeeds when each line encodes, and gives the lines' instructions in order. -/
theorem encodeLines_cons_ok {table : LabelTable} {k : Nat} {l : Line} {text : List Line} {is : List Instr}
    (h : encodeLines table k (l :: text) = .ok is) :
    ∃ o js, encodeLine table l = .ok o ∧ encodeLines table (k + 1) text = .ok js ∧ is = o.toList ++ js := by
  unfold encodeLines at h
  split at h
  · cases h
  · exact ⟨none, is, ‹_›, h, rfl⟩
  · split at h
    · injection h with h
      exact ⟨_, _, ‹_›, ‹_›, h.symm⟩
    · cases h

theorem encodeLines_length {table : LabelTable} {k : Nat} {text : List Line} {is : List Instr}
    (h : encodeLines table k text = .ok is) : is.length = text.countP lineHasInstr := by
  induction text generalizing k is with
  | nil =>
    injection h with h
    rw [← h]
    rfl
  | cons l text ih =>
    obtain ⟨o, js, hline, htext, rfl⟩ := encodeLines_cons_ok h
    rw [List.length_append, ih htext, countP_lineHasInstr_cons, ← encodeLine_isSome hline, Nat.add_comm]
    cases o <;> rfl

theorem encodeLine_ok_of_encodeLines {table : LabelTable} {k : Nat} {text : List Line} {is : List Instr}
    (h : encodeLines table k text = .ok is) : ∀ l ∈ text, ∃ o, encodeLine table l = .ok o := by
  induction text generalizing k is with
  | nil => simp
  | cons l text ih =>
    obtain ⟨o, js, hline, htext, -⟩ := encodeLines_cons_ok h
    exact List.forall_mem_cons.mpr ⟨⟨o, hline⟩, ih htext⟩

/-- Every instruction pass 2 gives is that of a line. -/
theorem exists_line_of_mem_encodeLines {table : LabelTable} {k : Nat} {text : List Line} {is : List Instr}
    (h : encodeLines table k text = .ok is) {i : Instr} (hi : i ∈ is) : ∃ l, encodeLine table l = .ok (some i) := by
  induction text generalizing k is with
  | nil =>
    injection h with h
    rw [← h] at hi
    cases hi
  | cons l text ih =>
    obtain ⟨o, js, hline, htext, rfl⟩ := encodeLines_cons_ok h
    rcases List.mem_append.mp hi with hi | hi
    · rw [Option.mem_toList] at hi
      exact ⟨l, hi ▸ hline⟩
    · exact ih htext hi

/-! ## The two passes together -/

theorem assemble_ok {text : List Line} {image : List MemWord} (h : assemble text = .ok image) :
    ∃ is, encodeLines (resolveLabels text).1 0 text = .ok is ∧ image = is.map encode := by
  unfold assemble at h
  split at h
  · injection h with h
    exact ⟨_, ‹_›, h.symm⟩
  · cases h

/-- Settles O54: both passes count the lines that hold an instruction. -/
theorem bothPassesCountAlike : Obligations.BothPassesCountAlike := by
  intro text image h
  obtain ⟨is, his, rfl⟩ := assemble_ok h
  rw [List.length_map, encodeLines_length his, resolveLabels_count]

theorem encodeLine_of_unknown {table : LabelTable} {l : Line} {m : Token} {ops : List Token}
    (h : instrTokens (tokens l) = m :: ops) (hm : mnemonicTable.lookup m = none) :
    encodeLine table l = .error (.unknownOpcode m) := by
  simp only [encodeLine, h, hm]

theorem bootText_of_assemble_error {text : List Line} {e : DecodeError} (h : assemble text = .error e)
    (capacity : Word) : bootText capacity text = .error (.assembly e) := by
  simp only [bootText, h]

/-- Settles O58: the text does not assemble, since that line does not encode. -/
theorem unknownMnemonicPreventsStart : Obligations.UnknownMnemonicPreventsStart := by
  intro text l m ops hl htokens hm capacity
  cases h : assemble text with
  | error e => exact ⟨e, bootText_of_assemble_error h capacity⟩
  | ok image =>
    obtain ⟨is, his, -⟩ := assemble_ok h
    obtain ⟨o, ho⟩ := encodeLine_ok_of_encodeLines his l hl
    rw [encodeLine_of_unknown htokens hm] at ho
    cases ho

/-- Settles O53, by evaluating the two passes on the worked program. -/
theorem workedProgramAssembles : Obligations.WorkedProgramAssembles := by
  unfold Obligations.WorkedProgramAssembles
  decide

end Sys2Proof.Machine
end

section
/-! The images the assembler makes (R255): their operands name the four registers and labels of the program, so a run of
an assembled program never misses a register (R212). -/

namespace Sys2Proof.Machine

/-! ## The operands of an assembled line -/

/-- A Register operand is one of the four the assembler knows, an Address operand is at most `bound` (R106, R107). -/
def TameOperand (bound : Nat) (o : Operand) : Prop :=
  (∀ r, o = .reg r → 1 ≤ r.toNat ∧ r.toNat ≤ 4) ∧ ∀ a, o = .addr a → a.toNat ≤ bound

theorem mem_of_lookup {α β : Type} [BEq α] [LawfulBEq α] {table : List (α × β)} {k : α} {v : β}
    (h : table.lookup k = some v) : (k, v) ∈ table := by
  obtain ⟨front, back, rfl, -⟩ := List.lookup_eq_some_iff.mp h
  simp

theorem registerTable_range : ∀ entry ∈ registerTable, 1 ≤ entry.2.toNat ∧ entry.2.toNat ≤ 4 := by decide

theorem TameOperand.none (bound : Nat) : TameOperand bound .none := ⟨nofun, nofun⟩

/-- R106: a token stands for a known register, a number, or a label of the table. -/
theorem classify_tame {table : LabelTable} {bound : Nat} (htable : ∀ entry ∈ table, entry.2 ≤ bound) {t : Token}
    {o : Operand} (h : classify table t = .ok o) : TameOperand bound o := by
  unfold classify at h
  split at h
  · cases h
    refine ⟨fun r hr => ?_, nofun⟩
    cases hr
    exact registerTable_range _ (mem_of_lookup ‹_›)
  · split at h
    · cases h
      exact ⟨nofun, nofun⟩
    · split at h
      · cases h
        refine ⟨nofun, fun a ha => ?_⟩
        cases ha
        rw [BitVec.toNat_ofNat]
        exact (Nat.mod_le _ _).trans (htable _ (mem_of_lookup ‹_›))
      · cases h

/-- R106, R110: a slot holds no operand or that of a token. -/
theorem operandSlots_tame {table : LabelTable} {bound : Nat} (htable : ∀ entry ∈ table, entry.2 ≤ bound)
    {ops : List Token} {x y : Operand} (h : operandSlots table ops = .ok (x, y)) :
    TameOperand bound x ∧ TameOperand bound y := by
  unfold operandSlots at h
  split at h
  · cases h
    exact ⟨.none bound, .none bound⟩
  · split at h
    · cases h
      exact ⟨classify_tame htable ‹_›, .none bound⟩
    · cases h
  · split at h
    · cases h
    · split at h
      · cases h
      · split at h
        · cases h
          exact ⟨classify_tame htable ‹_›, classify_tame htable ‹_›⟩
        · cases h

/-- A mnemonic puts the operands in the slots in order. -/
theorem mnemonicTable_slots :
    ∀ entry ∈ mnemonicTable, ∀ x y, (entry.2 x y).slotA = x ∧ (entry.2 x y).slotB = y := by
  simp [mnemonicTable, Instr.slotA, Instr.slotB]

theorem encodeLine_tame {table : LabelTable} {bound : Nat} (htable : ∀ entry ∈ table, entry.2 ≤ bound) {l : Line}
    {i : Instr} (h : encodeLine table l = .ok (some i)) : TameOperand bound i.slotA ∧ TameOperand bound i.slotB := by
  unfold encodeLine at h
  split at h
  · cases h
  · split at h
    · cases h
    · split at h
      · cases h
        obtain ⟨hA, hB⟩ := mnemonicTable_slots _ (mem_of_lookup ‹_›) _ _
        rw [hA, hB]
        exact operandSlots_tame htable ‹_›
      · cases h

/-- Every word of an assembled image is the encoding of an instruction with tame operands. -/
theorem exists_instr_of_mem_assemble {text : List Line} {image : List MemWord} (h : assemble text = .ok image)
    {w : MemWord} (hw : w ∈ image) :
    ∃ i, encode i = w ∧ TameOperand image.length i.slotA ∧ TameOperand image.length i.slotB := by
  have hcount := bothPassesCountAlike text image h
  obtain ⟨is, his, rfl⟩ := assemble_ok h
  obtain ⟨i, hi, rfl⟩ := List.mem_map.mp hw
  obtain ⟨l, hl⟩ := exists_line_of_mem_encodeLines his hi
  rw [hcount]
  exact ⟨i, rfl, encodeLine_tame (labelsLieWithinProgram text) hl⟩

/-- Settles O57: the words are encodings, whose fields are known, of instructions with tame operands. -/
theorem assembledImagesAreTame : Obligations.AssembledImagesAreTame := by
  intro text image h w hw
  obtain ⟨i, rfl, hA, hB⟩ := exists_instr_of_mem_assemble h hw
  refine ⟨i, decode_encode i, rfl, ?opcode, ?fieldA, ?fieldB, ?operands⟩
  case opcode =>
    intro hopc
    exact i.opcode_ne_reserved (congrArg BitVec.toNat ((opcField_encode i).symm.trans hopc))
  case fieldA =>
    rw [taField_encode, vaField_encode]
    exact Operand.field_of_tag_zero
  case fieldB =>
    rw [tbField_encode, vbField_encode]
    exact Operand.field_of_tag_zero
  case operands =>
    intro o ho
    rcases List.mem_pair.mp ho with rfl | rfl
    · exact hA
    · exact hB

/-! ## Runs of an assembled program (R212) -/

theorem TameOperand.indexInRange {bound : Nat} {o : Operand} (h : TameOperand bound o) : o.indexInRange = true := by
  obtain ⟨hreg, -⟩ := h
  cases o with
  | none | imm _ | addr _ => rfl
  | reg r =>
    obtain ⟨-, hle⟩ := hreg r rfl
    exact decide_eq_true (by omega)

/-- R93: registers that exist in both slots exist in the used ones. -/
theorem Instr.registersExist_of_slots {i : Instr} (ha : i.slotA.indexInRange = true)
    (hb : i.slotB.indexInRange = true) : i.registersExist = true := by
  cases i with
  | noop | halt => rfl
  | mov | add | cmp => exact Bool.and_eq_true_iff.mpr ⟨ha, hb⟩
  | push | pop | int | jmp | je | jne | jl | jle | jg | jge => exact ha

theorem bootText_ok {capacity : Word} {text : List Line} {s : State} (h : bootText capacity text = .ok s) :
    ∃ image, assemble text = .ok image ∧ boot capacity image = .ok s := by
  unfold bootText at h
  split at h
  · cases h
  · split at h
    · cases h
      exact ⟨_, ‹_›, ‹_›⟩
    · cases h

/-- The states from which no instruction misses a register: what O45 says every step keeps. -/
def State.RunsKnownRegisters (s : State) : Prop :=
  s.Inv ∧ s.codeNamesRegisters ∧ s.status ≠ .faulted .registerOutOfRange

theorem State.RunsKnownRegisters.step {s : State} (h : s.RunsKnownRegisters) :
    ∃ t, step s = .next t ∧ t.RunsKnownRegisters := by
  obtain ⟨hi, hcode, hstatus⟩ := h
  obtain ⟨t, ht⟩ := step_goes_on hi
  exact ⟨t, ht, stepKeepsCodeNamingRegisters s t hi hcode hstatus ht⟩

/-- Settles O47: the booted code names the four registers of the assembler, and every step of the run keeps it so. -/
theorem assembledProgramsNeverNameMissingRegisters : Obligations.AssembledProgramsNeverNameMissingRegisters := by
  intro text capacity s t fuel hboot hrun
  obtain ⟨image, hassemble, hboot⟩ := bootText_ok hboot
  obtain ⟨hfits, rfl⟩ := boot_eq_ok_iff.mp hboot
  have hcode : (State.booted capacity image).codeNamesRegisters := by
    intro a i ha
    refine State.booted_code hfits (p := fun w => decode w = .ok i → i.registersExist = true) (fun w hw hd => ?_) a ha
    obtain ⟨j, rfl, hA, hB⟩ := exists_instr_of_mem_assemble hassemble hw
    rw [decode_encode] at hd
    rw [← Except.ok.inj hd]
    exact Instr.registersExist_of_slots hA.indexInRange hB.indexInRange
  have hstart : (State.booted capacity image).RunsKnownRegisters :=
    ⟨State.inv_booted hfits, hcode, Status.noConfusion⟩
  obtain ⟨u, hu, -, -, hstatus⟩ := runToEnd_keeps (fun _ => State.RunsKnownRegisters.step) fuel hstart
  injection hrun.symm.trans hu with htu
  rwa [htu]

end Sys2Proof.Machine
end
